-- ==== Sys2Proof/Word.lean ====
section
/-! DEFINITION. The word types of the block (00_scope.md R7, R8): every value is unsigned. -/

namespace Sys2Proof

/-- A byte: a general register, a timer, a memory cell (10_state.md R17, R27, R28; 20_memory.md R42). -/
abbrev Byte := BitVec 8

/-- A 16-bit word: an opcode, `PC`, `I`, a return address (10_state.md R20, R24, R25; 30_encoding.md R60). -/
abbrev Word := BitVec 16

/-- The 12-bit address field `nnn` (30_encoding.md R60). -/
abbrev Addr := BitVec 12

/-- A 4-bit field of an opcode (30_encoding.md R60). -/
abbrev Nibble := BitVec 4

/-- The name of a general register, `V0`..`VF` (10_state.md R17). -/
abbrev Reg := Fin 16

/-- A key code, 0..15 (00_scope.md R6, `NUM_KEYS`). -/
abbrev Key := Fin 16

/-- `VF`, the register reused as a flag output (10_state.md R18). -/
abbrev vf : Reg := 15

end Sys2Proof
end

