-- ==== Sys2Proof/Machine/Flags.lean ====
section
/-! DEFINITION. The results and flags of the ALU, from exact integers (41_alu.md R85, R86). A flag is a byte, 0 or 1. -/

namespace Sys2Proof.Machine

/-- A boolean used as a number (00_scope.md R14). -/
def flagByte (c : Bool) : Byte := if c then 1 else 0

/-- `(a + b) mod 256` (41_alu.md R85). -/
def addResult (a b : Byte) : Byte := BitVec.ofNat 8 (a.toNat + b.toNat)

/-- VF of 8XY4: 1 iff the sum is above 255 (41_alu.md R93). -/
def carryFlag (a b : Byte) : Byte := flagByte (decide (a.toNat + b.toNat > 255))

/-- `(a - b) mod 256`, where a negative difference `d` is `d + 256` (41_alu.md R85). -/
def subResult (a b : Byte) : Byte := BitVec.ofInt 8 ((a.toNat : Int) - b.toNat)

/-- VF of `a - b`: 1 iff no borrow occurred (41_alu.md R86, R94, R96). -/
def noBorrowFlag (a b : Byte) : Byte := flagByte (decide (a.toNat ≥ b.toNat))

/-- `a >> 1` (41_alu.md R95). -/
def shrResult (a : Byte) : Byte := a >>> 1

/-- VF of 8XY6: the bit shifted out, bit 0 (41_alu.md R95). -/
def shrFlag (a : Byte) : Byte := flagByte (a.getLsbD 0)

/-- `(a << 1) mod 256` (41_alu.md R97). -/
def shlResult (a : Byte) : Byte := a <<< 1

/-- VF of 8XYE: the bit shifted out, bit 7 (41_alu.md R97). -/
def shlFlag (a : Byte) : Byte := flagByte (a.getLsbD 7)

end Sys2Proof.Machine
end

