-- ==== Sys2Proof/Config.lean ====
section
/-! DEFINITION. The implementation parameters of 00_scope.md R6 and the free value of `Draw8()`.
The parameters are data of a type, so that a state carries its machine's own and every statement ranges over all of
them (log 1); their defaults stand in Machine/Defaults.lean. -/

namespace Sys2Proof

/-- What EX9E and EXA1 do with a key value above 15 (43_timers_keys.md R112). -/
inductive KeyIndexPolicy where
  | halt
  | mask
  | notPressed
deriving DecidableEq, Repr

/-- The built-in glyph table: 16 glyphs of 5 rows of one byte (10_state.md R37). -/
abbrev GlyphTable := Vector (Vector Byte 5) 16

/-- The parameters of 00_scope.md R6 that a model may take as arguments. -/
structure Config where
  /-- `STACK_DEPTH`: how many return addresses the call stack holds (10_state.md R25). -/
  stackDepth : Nat
  /-- `BATCH_SIZE`: at most how many `step()` calls one tick makes (60_exceptions.md R136). -/
  batchSize : Nat
  /-- `ODD_PC_HALTS`: whether a fetch at an odd `PC` halts (30_encoding.md R59). -/
  oddPcHalts : Bool
  /-- `STRICT_5_9`: whether 5XYn and 9XYn with `n` not 0 are unsupported (30_encoding.md R68). -/
  strict59 : Bool
  /-- `DRAW_VF_CLEAR_FIRST`: whether DXYN clears VF before it reads VX and VY (44_display.md R114). -/
  drawVfClearFirst : Bool
  /-- `KEY_INDEX_POLICY` (43_timers_keys.md R112). -/
  keyIndexPolicy : KeyIndexPolicy
  /-- `FONT_INDEX_MASK`: whether FX29 takes only the low nibble of VX (42_index_memory.md R101). -/
  fontIndexMask : Bool
  /-- `GLYPH_TABLE` (10_state.md R37). -/
  glyphs : GlyphTable
deriving DecidableEq, Repr

/-- DESIGN CHOICE (log 7), safe: the answer of the k-th `Draw8()` call, a FREE VALUE. "No law is assumed of the draw"
(41_alu.md R98), so it has no body and nothing can be proved of what it is. -/
opaque Config.draw8 : Nat → Byte

end Sys2Proof
end

