-- ==== Sys2Proof/Machine/Defaults.lean ====
section
/-! DEFINITION. The fixed constants of 00_scope.md R6 and the defaults of its parameters, the glyph bytes of
10_state.md R37 among them. -/

namespace Sys2Proof.Machine

/-- `ADDR_MAX`: "addresses never exceed 0xFFF" (00_scope.md R6, 20_memory.md R42). -/
def addrMax : Nat := 0xFFF

/-- `PROGRAM_BASE`, the entry point (00_scope.md R6, 70_reset_and_hazards.md R149). -/
def programBase : Nat := 0x200

/-- `GLYPH_BASE` (00_scope.md R6). -/
def glyphBase : Nat := 0x000

/-- `ROM_MAX`: the size of the program region 0x200..0xFFF (00_scope.md R6, 70_reset_and_hazards.md R148). -/
def romMax : Nat := 3584

/-- The conventional CHIP-8 font, glyph by glyph, top row first (10_state.md R37; UNVERIFIED, log 2: the spec supplies
the bytes from general knowledge, K14). -/
def defaultGlyphs : GlyphTable :=
  #v[#v[0xF0, 0x90, 0x90, 0x90, 0xF0], #v[0x20, 0x60, 0x20, 0x20, 0x70],
     #v[0xF0, 0x10, 0xF0, 0x80, 0xF0], #v[0xF0, 0x10, 0xF0, 0x10, 0xF0],
     #v[0x90, 0x90, 0xF0, 0x10, 0x10], #v[0xF0, 0x80, 0xF0, 0x10, 0xF0],
     #v[0xF0, 0x80, 0xF0, 0x90, 0xF0], #v[0xF0, 0x10, 0x20, 0x40, 0x40],
     #v[0xF0, 0x90, 0xF0, 0x90, 0xF0], #v[0xF0, 0x90, 0xF0, 0x10, 0xF0],
     #v[0xF0, 0x90, 0xF0, 0x90, 0x90], #v[0xE0, 0x90, 0xE0, 0x90, 0xE0],
     #v[0xF0, 0x80, 0x80, 0x80, 0xF0], #v[0xE0, 0x90, 0x90, 0x90, 0xE0],
     #v[0xF0, 0x80, 0xF0, 0x80, 0xF0], #v[0xF0, 0x80, 0xF0, 0x80, 0x80]]

/-- The defaults of 00_scope.md R6 (UNVERIFIED, log 2: the spec's own decisions D2, D5, D10, D12 to D15). -/
def defaultConfig : Config where
  stackDepth := 16
  batchSize := 16
  oddPcHalts := false
  strict59 := false
  drawVfClearFirst := true
  keyIndexPolicy := .halt
  fontIndexMask := false
  glyphs := defaultGlyphs

end Sys2Proof.Machine
end

