-- ==== Sys2Proof/Syntax.lean ====
section
/-! DEFINITION. The instructions, one constructor per row of spec/opcode_table.json, with the operand fields of
30_encoding.md R60 to R62. Bits an instruction ignores are kept as operands (log 12), so that a constructor's term and
its 16-bit word say the same. -/

namespace Sys2Proof

/-- The 34 instructions (30_encoding.md R63 to R68, R73). -/
inductive Instr where
  /-- 00E0, `CLS`. -/
  | cls
  /-- 00EE, `RET`. -/
  | ret
  /-- 1NNN, `JP addr`. -/
  | jpAddr (nnn : Addr)
  /-- 2NNN, `CALL addr`. -/
  | callAddr (nnn : Addr)
  /-- 3XNN, `SE Vx, byte`. -/
  | seVxByte (x : Reg) (nn : Byte)
  /-- 4XNN, `SNE Vx, byte`. -/
  | sneVxByte (x : Reg) (nn : Byte)
  /-- 5XYn, `SE Vx, Vy`; `low` is the low nibble, not examined unless `STRICT_5_9` (30_encoding.md R68). -/
  | seVxVy (x y : Reg) (low : Nibble)
  /-- 6XNN, `LD Vx, byte`. -/
  | ldVxByte (x : Reg) (nn : Byte)
  /-- 7XNN, `ADD Vx, byte`. -/
  | addVxByte (x : Reg) (nn : Byte)
  /-- 8XY0, `LD Vx, Vy`. -/
  | ldVxVy (x y : Reg)
  /-- 8XY1, `OR Vx, Vy`. -/
  | orVxVy (x y : Reg)
  /-- 8XY2, `AND Vx, Vy`. -/
  | andVxVy (x y : Reg)
  /-- 8XY3, `XOR Vx, Vy`. -/
  | xorVxVy (x y : Reg)
  /-- 8XY4, `ADD Vx, Vy`. -/
  | addVxVy (x y : Reg)
  /-- 8XY5, `SUB Vx, Vy`. -/
  | subVxVy (x y : Reg)
  /-- 8XY6, `SHR Vx {, Vy}`; the instruction ignores `y` (30_encoding.md R74). -/
  | shrVx (x y : Reg)
  /-- 8XY7, `SUBN Vx, Vy`. -/
  | subnVxVy (x y : Reg)
  /-- 8XYE, `SHL Vx {, Vy}`; the instruction ignores `y` (30_encoding.md R74). -/
  | shlVx (x y : Reg)
  /-- 9XYn, `SNE Vx, Vy`; `low` is the low nibble, not examined unless `STRICT_5_9` (30_encoding.md R68). -/
  | sneVxVy (x y : Reg) (low : Nibble)
  /-- ANNN, `LD I, addr`. -/
  | ldIAddr (nnn : Addr)
  /-- BNNN, `JP V0, addr`. -/
  | jpV0Addr (nnn : Addr)
  /-- CXNN, `RND Vx, byte`. -/
  | rndVxByte (x : Reg) (nn : Byte)
  /-- DXYN, `DRW Vx, Vy, nibble`. -/
  | drwVxVyNibble (x y : Reg) (n : Nibble)
  /-- EX9E, `SKP Vx`. -/
  | skpVx (x : Reg)
  /-- EXA1, `SKNP Vx`. -/
  | sknpVx (x : Reg)
  /-- FX07, `LD Vx, DT`. -/
  | ldVxDt (x : Reg)
  /-- FX0A, `LD Vx, K`. -/
  | ldVxK (x : Reg)
  /-- FX15, `LD DT, Vx`. -/
  | ldDtVx (x : Reg)
  /-- FX18, `LD ST, Vx`. -/
  | ldStVx (x : Reg)
  /-- FX1E, `ADD I, Vx`. -/
  | addIVx (x : Reg)
  /-- FX29, `LD F, Vx`. -/
  | ldFVx (x : Reg)
  /-- FX33, `LD B, Vx`. -/
  | ldBVx (x : Reg)
  /-- FX55, `LD [I], Vx`. -/
  | ldMemVx (x : Reg)
  /-- FX65, `LD Vx, [I]`. -/
  | ldVxMem (x : Reg)
deriving DecidableEq, Repr

end Sys2Proof
end

