-- ==== Sys2Proof/WellFormed.lean ====
section
/-! DEFINITION. Which terms of `Instr` are instructions of a machine. The operand types hold every field to its width;
what is left to check is the low nibble of 5XYn and 9XYn, which `STRICT_5_9` wants to be 0 (30_encoding.md R68). -/

namespace Sys2Proof

/-- With `STRICT_5_9 = true`, "a word 0x5XYn or 0x9XYn with `n != 0` is unsupported"; every other term is an
instruction (30_encoding.md R68). -/
def Instr.wellFormed (strict : Bool) : Instr → Bool
  | .seVxVy _ _ low => !strict || low == 0
  | .sneVxVy _ _ low => !strict || low == 0
  | _ => true

end Sys2Proof
end

