-- ==== Sys2Proof/Decode.lean ====
section
/-! DEFINITION. The instruction decoder and the encoder (30_encoding.md R60 to R72). -/

namespace Sys2Proof

/-! ### Fields (30_encoding.md R60) -/

/-- The top nibble `t`, bits 15..12. -/
def fieldT (op : Word) : Nibble := op.extractLsb' 12 4

/-- The register index `x`, bits 11..8. -/
def fieldX (op : Word) : Reg := (op.extractLsb' 8 4).toFin

/-- The register index `y`, bits 7..4. -/
def fieldY (op : Word) : Reg := (op.extractLsb' 4 4).toFin

/-- The nibble `n`, bits 3..0. -/
def fieldN (op : Word) : Nibble := op.extractLsb' 0 4

/-- The byte `nn`, bits 7..0. -/
def fieldNN (op : Word) : Byte := op.extractLsb' 0 8

/-- The address `nnn`, bits 11..0. -/
def fieldNNN (op : Word) : Addr := op.extractLsb' 0 12

/-! ### Dispatch (30_encoding.md R63 to R69) -/

/-- Top nibble 0x0: only the words 0x00E0 and 0x00EE (30_encoding.md R64, 90_conflicts.md C4). -/
def decodeFamily0 (op : Word) : Option Instr :=
  match (fieldNNN op).toNat with
  | 0x0E0 => some .cls
  | 0x0EE => some .ret
  | _ => none

/-- Top nibble 0x8: the selector is `n` (30_encoding.md R65). -/
def decodeFamily8 (op : Word) : Option Instr :=
  match (fieldN op).toNat with
  | 0x0 => some (.ldVxVy (fieldX op) (fieldY op))
  | 0x1 => some (.orVxVy (fieldX op) (fieldY op))
  | 0x2 => some (.andVxVy (fieldX op) (fieldY op))
  | 0x3 => some (.xorVxVy (fieldX op) (fieldY op))
  | 0x4 => some (.addVxVy (fieldX op) (fieldY op))
  | 0x5 => some (.subVxVy (fieldX op) (fieldY op))
  | 0x6 => some (.shrVx (fieldX op) (fieldY op))
  | 0x7 => some (.subnVxVy (fieldX op) (fieldY op))
  | 0xE => some (.shlVx (fieldX op) (fieldY op))
  | _ => none

/-- Top nibble 0xE: the selector is `nn` (30_encoding.md R66). -/
def decodeFamilyE (op : Word) : Option Instr :=
  match (fieldNN op).toNat with
  | 0x9E => some (.skpVx (fieldX op))
  | 0xA1 => some (.sknpVx (fieldX op))
  | _ => none

/-- Top nibble 0xF: the selector is `nn` (30_encoding.md R67). -/
def decodeFamilyF (op : Word) : Option Instr :=
  match (fieldNN op).toNat with
  | 0x07 => some (.ldVxDt (fieldX op))
  | 0x0A => some (.ldVxK (fieldX op))
  | 0x15 => some (.ldDtVx (fieldX op))
  | 0x18 => some (.ldStVx (fieldX op))
  | 0x1E => some (.addIVx (fieldX op))
  | 0x29 => some (.ldFVx (fieldX op))
  | 0x33 => some (.ldBVx (fieldX op))
  | 0x55 => some (.ldMemVx (fieldX op))
  | 0x65 => some (.ldVxMem (fieldX op))
  | _ => none

/-- The dispatch by top nibble (30_encoding.md R63); `strict` is `STRICT_5_9` (30_encoding.md R68). `none`: the word is
unsupported (30_encoding.md R69). -/
def decodeWord (strict : Bool) (op : Word) : Option Instr :=
  match (fieldT op).toNat with
  | 0x0 => decodeFamily0 op
  | 0x1 => some (.jpAddr (fieldNNN op))
  | 0x2 => some (.callAddr (fieldNNN op))
  | 0x3 => some (.seVxByte (fieldX op) (fieldNN op))
  | 0x4 => some (.sneVxByte (fieldX op) (fieldNN op))
  | 0x5 => if strict && fieldN op != 0 then none else some (.seVxVy (fieldX op) (fieldY op) (fieldN op))
  | 0x6 => some (.ldVxByte (fieldX op) (fieldNN op))
  | 0x7 => some (.addVxByte (fieldX op) (fieldNN op))
  | 0x8 => decodeFamily8 op
  | 0x9 => if strict && fieldN op != 0 then none else some (.sneVxVy (fieldX op) (fieldY op) (fieldN op))
  | 0xA => some (.ldIAddr (fieldNNN op))
  | 0xB => some (.jpV0Addr (fieldNNN op))
  | 0xC => some (.rndVxByte (fieldX op) (fieldNN op))
  | 0xD => some (.drwVxVyNibble (fieldX op) (fieldY op) (fieldN op))
  | 0xE => decodeFamilyE op
  | 0xF => decodeFamilyF op
  | _ => none

/-- Why bytes are no instruction: fewer than two are left, or their word is unsupported (30_encoding.md R69, R71). -/
inductive Reject where
  | truncated
  | unsupported (op : Word)
deriving DecidableEq, Repr

/-- Two bytes as a word, the first the high one (20_memory.md R47). -/
def wordOfBytes (hi lo : Byte) : Word := hi ++ lo

/-- The decoder over bytes: one instruction and the bytes after it, or the reason there is none. Every instruction is
one 16-bit word (30_encoding.md R71). -/
def decode (strict : Bool) : List Byte → Except Reject (Instr × List Byte)
  | hi :: lo :: rest =>
    match decodeWord strict (wordOfBytes hi lo) with
    | some i => .ok (i, rest)
    | none => .error (.unsupported (wordOfBytes hi lo))
  | _ => .error .truncated

/-! ### The encoder (30_encoding.md R61) -/

/-- A register index as its 4-bit field. -/
def regBits (r : Reg) : Nibble := BitVec.ofFin r

/-- The shapes `T X Y S` and `D X Y N`: two registers and a nibble. -/
def encodeXYN (t : Nibble) (x y : Reg) (n : Nibble) : Word := t ++ regBits x ++ regBits y ++ n

/-- The shapes `T X NN` and `T X SS`: a register and a byte, which is an immediate or a selector. -/
def encodeXNN (t : Nibble) (x : Reg) (nn : Byte) : Word := t ++ regBits x ++ nn

/-- The shape `T NNN`, which also writes out the fixed words of top nibble 0. -/
def encodeNNN (t : Nibble) (nnn : Addr) : Word := t ++ nnn

/-- The word of an instruction (30_encoding.md R61, spec/opcode_table.json). -/
def encode : Instr → Word
  | .cls => encodeNNN 0x0 0x0E0
  | .ret => encodeNNN 0x0 0x0EE
  | .jpAddr nnn => encodeNNN 0x1 nnn
  | .callAddr nnn => encodeNNN 0x2 nnn
  | .seVxByte x nn => encodeXNN 0x3 x nn
  | .sneVxByte x nn => encodeXNN 0x4 x nn
  | .seVxVy x y low => encodeXYN 0x5 x y low
  | .ldVxByte x nn => encodeXNN 0x6 x nn
  | .addVxByte x nn => encodeXNN 0x7 x nn
  | .ldVxVy x y => encodeXYN 0x8 x y 0x0
  | .orVxVy x y => encodeXYN 0x8 x y 0x1
  | .andVxVy x y => encodeXYN 0x8 x y 0x2
  | .xorVxVy x y => encodeXYN 0x8 x y 0x3
  | .addVxVy x y => encodeXYN 0x8 x y 0x4
  | .subVxVy x y => encodeXYN 0x8 x y 0x5
  | .shrVx x y => encodeXYN 0x8 x y 0x6
  | .subnVxVy x y => encodeXYN 0x8 x y 0x7
  | .shlVx x y => encodeXYN 0x8 x y 0xE
  | .sneVxVy x y low => encodeXYN 0x9 x y low
  | .ldIAddr nnn => encodeNNN 0xA nnn
  | .jpV0Addr nnn => encodeNNN 0xB nnn
  | .rndVxByte x nn => encodeXNN 0xC x nn
  | .drwVxVyNibble x y n => encodeXYN 0xD x y n
  | .skpVx x => encodeXNN 0xE x 0x9E
  | .sknpVx x => encodeXNN 0xE x 0xA1
  | .ldVxDt x => encodeXNN 0xF x 0x07
  | .ldVxK x => encodeXNN 0xF x 0x0A
  | .ldDtVx x => encodeXNN 0xF x 0x15
  | .ldStVx x => encodeXNN 0xF x 0x18
  | .addIVx x => encodeXNN 0xF x 0x1E
  | .ldFVx x => encodeXNN 0xF x 0x29
  | .ldBVx x => encodeXNN 0xF x 0x33
  | .ldMemVx x => encodeXNN 0xF x 0x55
  | .ldVxMem x => encodeXNN 0xF x 0x65

/-- The two bytes of a word as the hardware stores them, high byte first (20_memory.md R47). -/
def bytesOfWord (op : Word) : List Byte := [op.extractLsb' 8 8, op.extractLsb' 0 8]

/-- The bytes of an instruction, as a ROM holds them (30_encoding.md R74). -/
def encodeBytes (i : Instr) : List Byte := bytesOfWord (encode i)

/-! ### The opcode table's numbering of bits -/

/-- The opcode word that the table's number `w` stands for: a row's bits are bits 15..0 of the one 16-bit word, and
bits at `nbits` and above are 0. -/
def tableWord (nbits w : Nat) : Word := BitVec.ofNat 16 (w % 2 ^ nbits)

/-- What the decoder, under the default parameters, reads from the bytes of the table's word `w`. -/
def decodeTableWord (nbits w : Nat) : Option Instr :=
  match decode Machine.defaultConfig.strict59 (bytesOfWord (tableWord nbits w)) with
  | .ok (i, _) => some i
  | .error _ => none

end Sys2Proof
end

