-- ==== Sys2Proof/Machine/State.lean ====
section
/-! DEFINITION. The state of the block (10_state.md R17 to R40), the reasons it stops, and the state after load. -/

namespace Sys2Proof.Machine

/-- The causes of a halt (60_exceptions.md R117). -/
inductive HaltCause where
  /-- Dispatch met an unsupported word (30_encoding.md R69). -/
  | unsupportedOpcode
  /-- 2NNN with `SP = STACK_DEPTH` (40_control_flow.md R79). -/
  | stackOverflow
  /-- 00EE with `SP = 0` (40_control_flow.md R77). -/
  | stackUnderflow
  /-- DXYN, FX33, FX55 or FX65 at a data address above 0xFFF (20_memory.md R46). -/
  | memoryOutOfRange
  /-- A fetch with `PC + 1` above 0xFFF (30_encoding.md R59). -/
  | fetchOutOfRange
  /-- A fetch at an odd `PC` under `ODD_PC_HALTS` (30_encoding.md R59). -/
  | misalignedFetch
  /-- EX9E or EXA1 with VX above 15 under the policy `halt` (43_timers_keys.md R112). -/
  | keyIndexOutOfRange
deriving DecidableEq, Repr

/-- The halt record (10_state.md R31). -/
structure HaltRecord where
  cause : HaltCause
  /-- The word being executed; `none` when the fetch itself halted. -/
  opcode : Option Word
  /-- The address the instruction was, or was to be, fetched from. -/
  addr : Word
  /-- The offending data address, unwrapped, or the offending key value. -/
  faultAddr : Option Nat
deriving DecidableEq, Repr

/-- `ENG`, the engine state (10_state.md R29, R30). -/
inductive Engine where
  | running
  /-- Blocked until a key press; `d` is the pending destination register. -/
  | waitingForKey (d : Reg)
  /-- Terminal; `h` is the halt record. -/
  | halted (h : HaltRecord)
deriving DecidableEq, Repr

/-- `SCHED`, the scheduler state (10_state.md R35). -/
inductive Sched where
  | active
  | stopped
deriving DecidableEq, Repr

/-- An input event as the Keyboard capability receives it (60_exceptions.md R131). -/
inductive InputEvent where
  | keyDown (k : Key)
  | keyUp (k : Key)
  /-- Any other event; it changes nothing. -/
  | other
deriving DecidableEq, Repr

/-- The whole state of the block (10_state.md R40), its configuration, and the two inputs of the environment. -/
structure State where
  /-- The parameters of 00_scope.md R6; no step changes them (log 1). -/
  cfg : Config
  /-- `V[0]`..`V[15]` (10_state.md R17). -/
  v : Vector Byte 16
  /-- `PC` (10_state.md R20). -/
  pc : Word
  /-- `I` (10_state.md R24). -/
  i : Word
  /-- `STACK[0]`..`STACK[STACK_DEPTH-1]` (10_state.md R25). -/
  stack : List Word
  /-- `SP`, how many entries of the call stack are held (10_state.md R25). -/
  sp : Nat
  /-- `DT`, the delay timer (10_state.md R27). -/
  dt : Byte
  /-- `ST`, the sound timer (10_state.md R28). -/
  st : Byte
  /-- `ENG` (10_state.md R29). -/
  eng : Engine
  /-- `FB`, a row of 64 pixels for each `y`; bit `x` of row `y` is `FB[y][x]` (10_state.md R32, log 14). -/
  fb : Vector (BitVec 64) 32
  /-- `SOUND_ON` (10_state.md R33). -/
  soundOn : Bool
  /-- `SCHED` (10_state.md R35). -/
  sched : Sched
  /-- The batch counter: how many `step()` calls the current tick has made (10_state.md R35, log 5). -/
  batch : Nat
  /-- `KEYS_DOWN`, bit `k` set while key `k` is held (10_state.md R34). -/
  keysDown : BitVec 16
  /-- `LAST_KEY`, the press latched since it was last taken (10_state.md R34). -/
  lastKey : Option Key
  /-- `MEM`: the bytes that differ from the load image's unlisted ones, by rising address (20_memory.md R42, log 13). -/
  mem : List Host.Cell
  /-- The environment's input of each coming tick, this tick's first; after its end no tick has one (60_exceptions.md
  R140, log 6). -/
  inputs : List (Option InputEvent)
  /-- How many `Draw8()` answers have been taken (60_exceptions.md R135, log 7). -/
  drawCount : Nat
deriving DecidableEq, Repr

/-- Why the machine stops. -/
inductive Fault where
  /-- Raised by `step` alone, when `SCHED` is `Stopped`: "a `Stopped` scheduler performs no further tick" (10_state.md
  R35, 60_exceptions.md R138). No instruction raises it. Safe (log 9): the run has ended. -/
  | schedulerStopped
deriving DecidableEq, Repr

/-- Why an instruction has no meaning. -/
inductive Refusal where
  /-- Raised by an arm of `exec` whose instruction has no meaning yet. Safe: nothing can be proved of its effect. -/
  | notModelled (mnemonic : String)
deriving DecidableEq, Repr

/-- The state after load, before the first tick (10_state.md R38), of a machine with the parameters `cfg` and before
any ROM byte is copied. -/
def State.initial (cfg : Config) : State where
  cfg := cfg
  v := Vector.replicate 16 0
  pc := 0x200
  i := 0
  stack := List.replicate cfg.stackDepth 0
  sp := 0
  dt := 0
  st := 0
  eng := .running
  fb := Vector.replicate 32 0
  soundOn := false
  sched := .active
  batch := 0
  keysDown := 0
  lastKey := none
  mem := []
  inputs := []
  drawCount := 0

/-- The machine right after reset: the load of an empty ROM under the default parameters (10_state.md R38,
70_reset_and_hazards.md R145, R147; log 16). -/
def State.reset : State := State.initial defaultConfig

end Sys2Proof.Machine
end

