-- ==== Sys2Proof/Machine/Memory.lean ====
section
/-! DEFINITION. Memory as a canonical list of cells (20_memory.md R42, R51): addresses strictly rising, every address
inside the space, and no cell that equals what an unlisted address reads as. -/

namespace Sys2Proof.Machine

/-- What an address that no cell lists reads as: the load image of 10_state.md R38, the glyph table at 0x000..0x04F
(glyph `g` at `5*g`, 10_state.md R37) and 0 elsewhere (log 13). -/
def Memory.background (g : GlyphTable) (a : Nat) : Byte :=
  if h : a < 80 then (g[a / 5]'(by omega))[a % 5]'(by omega) else 0

/-- The byte a list of cells gives an address, if it lists it. -/
def Memory.lookup : List Host.Cell → Nat → Option Byte
  | [], _ => none
  | (b, w) :: m, a => if a = b then some w else Memory.lookup m a

/-- The byte at an address of the space (20_memory.md R51). -/
def Memory.read (g : GlyphTable) (m : List Host.Cell) (a : Nat) : Byte :=
  (Memory.lookup m a).getD (Memory.background g a)

/-- The cells with `a` listed as `w`, in address order. -/
def Memory.insert (a : Nat) (w : Byte) : List Host.Cell → List Host.Cell
  | [] => [(a, w)]
  | (b, u) :: m =>
    if a < b then (a, w) :: (b, u) :: m
    else if a = b then (a, w) :: m
    else (b, u) :: Memory.insert a w m

/-- The cells without `a`. -/
def Memory.erase (a : Nat) (m : List Host.Cell) : List Host.Cell := m.filter fun c => c.1 != a

/-- Store byte `w` at `a` (20_memory.md R51), keeping the canonical form. -/
def Memory.write (g : GlyphTable) (m : List Host.Cell) (a : Nat) (w : Byte) : List Host.Cell :=
  if w = Memory.background g a then Memory.erase a m else Memory.insert a w m

/-- The canonical form. -/
abbrev Memory.wf (g : GlyphTable) (m : List Host.Cell) : Prop :=
  m.Pairwise (fun c d => c.1 < d.1) ∧ ∀ c ∈ m, c.1 ≤ addrMax ∧ c.2 ≠ Memory.background g c.1

end Sys2Proof.Machine
end

