-- ==== Sys2Proof/Machine/Ops.lean ====
section
/-! DEFINITION. The shared operations over registers, memory, the call stack and the halt, and the fetch. -/

namespace Sys2Proof.Machine

/-- What a step or a meaning answers. -/
abbrev Result := Host.Outcome State Fault Refusal

/-! ### Registers (10_state.md R17, R20, R24, R27, R28, R29) -/

/-- `V[r]`. -/
def State.getV (s : State) (r : Reg) : Byte := s.v[r.val]

/-- `V[r] <- b`. -/
def State.setV (s : State) (r : Reg) (b : Byte) : State := { s with v := s.v.set r.val b }

/-- `PC <- w`. -/
def State.setPc (s : State) (w : Word) : State := { s with pc := w }

/-- `I <- w`. -/
def State.setI (s : State) (w : Word) : State := { s with i := w }

/-- `DT <- b`. -/
def State.setDt (s : State) (b : Byte) : State := { s with dt := b }

/-- `ST <- b`. -/
def State.setSt (s : State) (b : Byte) : State := { s with st := b }

/-- `ENG <- e`. -/
def State.setEng (s : State) (e : Engine) : State := { s with eng := e }

/-- The result to `V[x]` first and the flag to `VF` second, so that the flag stays when `x` is VF (41_alu.md R86). -/
def State.setResultThenFlag (s : State) (x : Reg) (result flag : Byte) : State :=
  (s.setV x result).setV vf flag

/-- A conditional skip: `PC <- (PC + 2) mod 2^16` when the condition holds (40_control_flow.md R76). -/
def State.skipIf (s : State) (c : Bool) : State := if c then s.setPc (s.pc + 2) else s

/-! ### Halts (60_exceptions.md R116) -/

/-- The numeric code of a cause; the numbers are labels of the spec's own (60_exceptions.md R117, D19). -/
def HaltCause.code : HaltCause → Nat
  | .unsupportedOpcode => 1
  | .stackOverflow => 2
  | .stackUnderflow => 3
  | .memoryOutOfRange => 4
  | .fetchOutOfRange => 5
  | .misalignedFetch => 6
  | .keyIndexOutOfRange => 7

/-- Taking a halt: `ENG <- Halted(h)` and nothing else. There is no vector, no saved register and no return from it:
a halt is terminal (60_exceptions.md R116, R118). -/
def State.raiseHalt (s : State) (cause : HaltCause) (opcode : Option Word) (addr : Word)
    (faultAddr : Option Nat) : State :=
  s.setEng (.halted { cause, opcode, addr, faultAddr })

/-- A halt raised by an instruction under execution: its word is that of `i`, and it was fetched from `PC - 2`
(10_state.md R20, log 11). -/
def State.haltInstr (s : State) (i : Instr) (cause : HaltCause) (faultAddr : Option Nat) : State :=
  s.raiseHalt cause (some (encode i)) (s.pc - 2) faultAddr

/-! ### Memory (00_scope.md R11) -/

/-- The byte that memory holds at an address, with no range check. -/
def State.byteAt (s : State) (a : Nat) : Byte := Memory.read s.cfg.glyphs s.mem a

/-- `MemRead(a, 1)`; `none` when `a` is above `ADDR_MAX` (20_memory.md R46). -/
def State.memRead (s : State) (a : Nat) : Option Byte :=
  if a ≤ addrMax then some (s.byteAt a) else none

/-- `MemWrite(a, 1, b)`; `none`, and no effect, when `a` is above `ADDR_MAX` (20_memory.md R46). -/
def State.memWrite (s : State) (a : Nat) (b : Byte) : Option State :=
  if a ≤ addrMax then some { s with mem := Memory.write s.cfg.glyphs s.mem a b } else none

/-- Place a byte in memory from outside the program; nothing happens at an address out of range. -/
def State.poke (s : State) (a : Nat) (b : Byte) : State := (s.memWrite a b).getD s

/-- Store bytes at rising addresses from `a`, up to the first address out of range: the state with the bytes before
it stored (60_exceptions.md R120), and that address if there is one. -/
def State.storeBytes : Nat → List Byte → State → State × Option Nat
  | _, [], s => (s, none)
  | a, b :: bs, s =>
    match s.memWrite a b with
    | some t => State.storeBytes (a + 1) bs t
    | none => (s, some a)

/-- Load registers from rising addresses from `a`, up to the first address out of range: the state with the registers
before it loaded (60_exceptions.md R120), and that address if there is one. -/
def State.loadRegs : Nat → List Reg → State → State × Option Nat
  | _, [], s => (s, none)
  | a, r :: rs, s =>
    match s.memRead a with
    | some b => State.loadRegs (a + 1) rs (s.setV r b)
    | none => (s, some a)

/-! ### The call stack (10_state.md R25) -/

/-- `STACK[SP] <- w; SP <- SP + 1`, or `none` when the stack is full (log 15). -/
def State.push (s : State) (w : Word) : Option State :=
  if s.sp < s.cfg.stackDepth then some { s with stack := s.stack.set s.sp w, sp := s.sp + 1 } else none

/-- `SP <- SP - 1` and the entry `STACK[SP]`, or `none` when the stack is empty. The entry keeps its value
(40_control_flow.md R77). -/
def State.pop (s : State) : Option (Word × State) :=
  match s.sp with
  | 0 => none
  | k + 1 => some (s.stack.getD k 0, { s with sp := k })

/-! ### Fetch (30_encoding.md R59) -/

/-- What a fetch ends in: the state of a halt, or the opcode, the address it came from and the state with `PC`
advanced. -/
inductive Fetched where
  | halt (s : State)
  | word (op : Word) (addr : Word) (s : State)

/-- The fetch of `step()`: the alignment check under `ODD_PC_HALTS`, the range check, the two byte reads and the
advance of `PC` (30_encoding.md R59, 60_exceptions.md R119). -/
def State.fetch (s : State) : Fetched :=
  if s.cfg.oddPcHalts && s.pc.getLsbD 0 then .halt (s.raiseHalt .misalignedFetch none s.pc none)
  else if s.pc.toNat + 1 > addrMax then .halt (s.raiseHalt .fetchOutOfRange none s.pc none)
  else .word (wordOfBytes (s.byteAt s.pc.toNat) (s.byteAt (s.pc.toNat + 1))) s.pc (s.setPc (s.pc + 2))

end Sys2Proof.Machine
end

