-- ==== Sys2Proof/Machine/Peripherals.lean ====
section
/-! DEFINITION. The primitives of the Display, Keyboard and Sound capabilities and of `Draw8()`, each one synchronous
transaction (00_scope.md R13, 60_exceptions.md R128 to R135). `Display.render()` "changes no state of the block"
(60_exceptions.md R130), so it has no definition here (log 17). -/

namespace Sys2Proof.Machine

/-! ### Display -/

/-- `FB[y][x]` (10_state.md R32). -/
def State.pixel (s : State) (x : Fin 64) (y : Fin 32) : Bool := s.fb[y.val].getLsbD x.val

/-- `Display.clear()` (60_exceptions.md R128). -/
def State.displayClear (s : State) : State := { s with fb := Vector.replicate 32 0 }

/-- `Display.set_pixel(x, y)`: toggles the pixel and answers whether it was set (60_exceptions.md R129). -/
def State.setPixel (s : State) (x : Fin 64) (y : Fin 32) : State × Bool :=
  ({ s with fb := s.fb.set y.val (s.fb[y.val] ^^^ BitVec.twoPow 64 x.val) }, s.pixel x y)

/-! ### Keyboard -/

/-- `Keyboard.handle_event(e)` (60_exceptions.md R131). -/
def State.handleEvent (s : State) : InputEvent → State
  | .keyDown k => { s with keysDown := s.keysDown ||| BitVec.twoPow 16 k.val, lastKey := some k }
  | .keyUp k => { s with keysDown := s.keysDown &&& ~~~(BitVec.twoPow 16 k.val) }
  | .other => s

/-- `Keyboard.is_pressed(k)` (60_exceptions.md R132). -/
def State.isPressed (s : State) (k : Key) : Bool := s.keysDown.getLsbD k.val

/-- `Keyboard.take_last_pressed_key()` (60_exceptions.md R133). -/
def State.takeLastPressedKey (s : State) : Option Key × State := (s.lastKey, { s with lastKey := none })

/-- `KeyQuery(k)`; `none` when it halts with KeyIndexOutOfRange (43_timers_keys.md R112). -/
def State.keyQuery (s : State) (k : Byte) : Option Bool :=
  if h : k.toNat ≤ 15 then some (s.isPressed ⟨k.toNat, by omega⟩)
  else
    match s.cfg.keyIndexPolicy with
    | .halt => none
    | .mask => some (s.isPressed ⟨k.toNat % 16, by omega⟩)
    | .notPressed => some false

/-! ### Sound -/

/-- `Sound.turn_on()` and `Sound.turn_off()` (60_exceptions.md R134). -/
def State.setSound (s : State) (on : Bool) : State := { s with soundOn := on }

/-! ### Random -/

/-- `Draw8()`: the next answer, a free value, and the state in which it is taken (60_exceptions.md R135, log 7). -/
def State.draw8 (s : State) : Byte × State := (Config.draw8 s.drawCount, { s with drawCount := s.drawCount + 1 })

end Sys2Proof.Machine
end

