-- ==== Sys2Proof/Machine/Alu.lean ====
section
/-! DEFINITION. Loads, logic, arithmetic with flag, shifts and the random draw (41_alu.md). Operands are read before
any write, and a flag is written after the result (41_alu.md R86). -/

namespace Sys2Proof.Machine

/-- 6XNN, `LD Vx, byte` (41_alu.md R87). -/
def execLdVxByte (x : Reg) (nn : Byte) (s : State) : Result := .next (s.setV x nn)

/-- 7XNN, `ADD Vx, byte`: no flag (41_alu.md R88). -/
def execAddVxByte (x : Reg) (nn : Byte) (s : State) : Result := .next (s.setV x (addResult (s.getV x) nn))

/-- 8XY0, `LD Vx, Vy` (41_alu.md R89). -/
def execLdVxVy (x y : Reg) (s : State) : Result := .next (s.setV x (s.getV y))

/-- 8XY1, `OR Vx, Vy`: no flag (41_alu.md R90). -/
def execOrVxVy (x y : Reg) (s : State) : Result := .next (s.setV x (s.getV x ||| s.getV y))

/-- 8XY2, `AND Vx, Vy`: no flag (41_alu.md R91). -/
def execAndVxVy (x y : Reg) (s : State) : Result := .next (s.setV x (s.getV x &&& s.getV y))

/-- 8XY3, `XOR Vx, Vy`: no flag (41_alu.md R92). -/
def execXorVxVy (x y : Reg) (s : State) : Result := .next (s.setV x (s.getV x ^^^ s.getV y))

/-- 8XY4, `ADD Vx, Vy` (41_alu.md R93). -/
def execAddVxVy (x y : Reg) (s : State) : Result :=
  .next (s.setResultThenFlag x (addResult (s.getV x) (s.getV y)) (carryFlag (s.getV x) (s.getV y)))

/-- 8XY5, `SUB Vx, Vy` (41_alu.md R94). -/
def execSubVxVy (x y : Reg) (s : State) : Result :=
  .next (s.setResultThenFlag x (subResult (s.getV x) (s.getV y)) (noBorrowFlag (s.getV x) (s.getV y)))

/-- 8XY6, `SHR Vx`: the `y` field is ignored, VY is neither read nor written (41_alu.md R95). -/
def execShrVx (x _y : Reg) (s : State) : Result :=
  .next (s.setResultThenFlag x (shrResult (s.getV x)) (shrFlag (s.getV x)))

/-- 8XY7, `SUBN Vx, Vy` (41_alu.md R96). -/
def execSubnVxVy (x y : Reg) (s : State) : Result :=
  .next (s.setResultThenFlag x (subResult (s.getV y) (s.getV x)) (noBorrowFlag (s.getV y) (s.getV x)))

/-- 8XYE, `SHL Vx`: the `y` field is ignored (41_alu.md R97). -/
def execShlVx (x _y : Reg) (s : State) : Result :=
  .next (s.setResultThenFlag x (shlResult (s.getV x)) (shlFlag (s.getV x)))

/-- CXNN once its draw is `r`: `V[x] <- r & nn` (41_alu.md R98). -/
def State.setMaskedDraw (s : State) (x : Reg) (nn r : Byte) : State := s.setV x (r &&& nn)

/-- CXNN, `RND Vx, byte`: the draw is a free value (41_alu.md R98, log 7). -/
def execRndVxByte (x : Reg) (nn : Byte) (s : State) : Result :=
  .next (s.draw8.2.setMaskedDraw x nn s.draw8.1)

end Sys2Proof.Machine
end

