-- ==== Sys2Proof/Machine/Operands.lean ====
section
/-! DEFINITION. The operand forms: immediates, register lists, the one addressing mode, the glyph address and the
decimal digits. -/

namespace Sys2Proof.Machine

/-- `zext_16(nnn)` (30_encoding.md R62). -/
def zextAddr (nnn : Addr) : Word := nnn.zeroExtend 16

/-- `zext_16` of a byte (40_control_flow.md R80, 42_index_memory.md R100). -/
def zextByte (b : Byte) : Word := b.zeroExtend 16

/-- The data address `I + k`: the unwrapped sum (42_index_memory.md R105). -/
def State.dataAddr (s : State) (k : Nat) : Nat := s.i.toNat + k

/-- All general registers, in order (10_state.md R17). -/
def allRegs : List Reg := [0x0, 0x1, 0x2, 0x3, 0x4, 0x5, 0x6, 0x7, 0x8, 0x9, 0xA, 0xB, 0xC, 0xD, 0xE, 0xF]

/-- The registers `V[0]`..`V[x]` of FX55 and FX65, in order (42_index_memory.md R103, R104). -/
def regsUpTo (x : Reg) : List Reg := allRegs.take (x.val + 1)

/-- `I` after FX55 and FX65: `(I + x + 1) mod 2^16` (42_index_memory.md R103, R104). -/
def State.indexPast (s : State) (x : Reg) : Word := BitVec.ofNat 16 (s.i.toNat + x.val + 1)

/-- The address FX29 puts in `I` for the value `b`: `GLYPH_BASE + 5 * g`, with `g` the low nibble of `b` under
`FONT_INDEX_MASK` (42_index_memory.md R101). -/
def glyphAddr (mask : Bool) (b : Byte) : Word :=
  BitVec.ofNat 16 (glyphBase + 5 * (if mask then b &&& 0x0F else b).toNat)

/-- The hundreds, tens and units of a byte (42_index_memory.md R102). -/
def bcdDigits (b : Byte) : List Byte :=
  [BitVec.ofNat 8 (b.toNat / 100), BitVec.ofNat 8 (b.toNat / 10 % 10), BitVec.ofNat 8 (b.toNat % 10)]

end Sys2Proof.Machine
end

