-- ==== Sys2Proof/Machine/ControlFlow.lean ====
section
/-! DEFINITION. Jumps, call, return and the conditional skips on registers (40_control_flow.md). In every meaning `PC`
already holds `a + 2` (10_state.md R20). -/

namespace Sys2Proof.Machine

/-- 00EE, `RET` (40_control_flow.md R77). -/
def execRet (s : State) : Result :=
  match s.pop with
  | some (w, t) => .next (t.setPc w)
  | none => .next (s.haltInstr .ret .stackUnderflow none)

/-- 1NNN, `JP addr` (40_control_flow.md R78). -/
def execJpAddr (nnn : Addr) (s : State) : Result := .next (s.setPc (zextAddr nnn))

/-- 2NNN, `CALL addr` (40_control_flow.md R79). -/
def execCallAddr (nnn : Addr) (s : State) : Result :=
  match s.push s.pc with
  | some t => .next (t.setPc (zextAddr nnn))
  | none => .next (s.haltInstr (.callAddr nnn) .stackOverflow none)

/-- BNNN, `JP V0, addr` (40_control_flow.md R80). -/
def execJpV0Addr (nnn : Addr) (s : State) : Result := .next (s.setPc (zextAddr nnn + zextByte (s.getV 0)))

/-- 3XNN, `SE Vx, byte` (40_control_flow.md R81). -/
def execSeVxByte (x : Reg) (nn : Byte) (s : State) : Result := .next (s.skipIf (s.getV x == nn))

/-- 4XNN, `SNE Vx, byte` (40_control_flow.md R82). -/
def execSneVxByte (x : Reg) (nn : Byte) (s : State) : Result := .next (s.skipIf (s.getV x != nn))

/-- 5XYn, `SE Vx, Vy`: the low nibble has no part in the effect (40_control_flow.md R83). -/
def execSeVxVy (x y : Reg) (_low : Nibble) (s : State) : Result := .next (s.skipIf (s.getV x == s.getV y))

/-- 9XYn, `SNE Vx, Vy`: the low nibble has no part in the effect (40_control_flow.md R84). -/
def execSneVxVy (x y : Reg) (_low : Nibble) (s : State) : Result := .next (s.skipIf (s.getV x != s.getV y))

end Sys2Proof.Machine
end

