-- ==== Sys2Proof/Machine/Display.lean ====
section
/-! DEFINITION. The display instructions (44_display.md). -/

namespace Sys2Proof.Machine

/-- 00E0, `CLS` (44_display.md R113). -/
def execCls (s : State) : Result := .next s.displayClear

/-- The eight columns of a sprite row, leftmost first (44_display.md R114, R115). -/
def spriteCols : List (Fin 8) := [0, 1, 2, 3, 4, 5, 6, 7]

/-- Sprite bit of a column: bit `7 - col` of the row's byte, so that bit 7 is the leftmost (44_display.md R115). -/
def spriteBit (b : Byte) (col : Fin 8) : Bool := b.getLsbD (7 - col.val)

/-- The screen column a coordinate wraps to, modulo 64 (44_display.md R114). -/
def screenCol (k : Nat) : Fin 64 := ⟨k % 64, Nat.mod_lt _ (by decide)⟩

/-- The screen row a coordinate wraps to, modulo 32 (44_display.md R114). -/
def screenRow (k : Nat) : Fin 32 := ⟨k % 32, Nat.mod_lt _ (by decide)⟩

/-- Draw the given columns of the row byte `b` at screen row `y`, from screen column `x0`, with the collision so far;
columns wrap modulo 64 (44_display.md R114). -/
def drawColumns (x0 : Nat) (y : Fin 32) (b : Byte) : List (Fin 8) → State × Bool → State × Bool
  | [], acc => acc
  | col :: cols, (s, c) =>
    if spriteBit b col then
      drawColumns x0 y b cols
        ((s.setPixel (screenCol (x0 + col.val)) y).1, c || (s.setPixel (screenCol (x0 + col.val)) y).2)
    else drawColumns x0 y b cols (s, c)

/-- Draw sprite rows `r`, `r + 1`, .. (`k` of them) of the sprite at `base`, from screen row `y0`; rows wrap modulo 32.
It ends at the first row address out of range, which it answers; the rows before stay drawn (44_display.md R114). -/
def drawRows (base x0 y0 : Nat) : Nat → Nat → State × Bool → (State × Bool) × Option Nat
  | 0, _, acc => (acc, none)
  | k + 1, r, acc =>
    match acc.1.memRead (base + r) with
    | some b => drawRows base x0 y0 k (r + 1) (drawColumns x0 (screenRow (y0 + r)) b spriteCols acc)
    | none => (acc, some (base + r))

/-- The value a coordinate register gives DXYN: it is read after VF is cleared under `DRAW_VF_CLEAR_FIRST`
(44_display.md R114). -/
def State.drawCoord (s : State) (r : Reg) : Nat :=
  ((if s.cfg.drawVfClearFirst then s.setV vf 0 else s).getV r).toNat

/-- DXYN, `DRW Vx, Vy, nibble` (44_display.md R114). -/
def execDrwVxVyNibble (x y : Reg) (n : Nibble) (s : State) : Result :=
  match drawRows (s.dataAddr 0) (s.drawCoord x) (s.drawCoord y) n.toNat 0 (s.setV vf 0, false) with
  | ((t, c), none) => .next (if c then t.setV vf 1 else t)
  | ((t, _), some a) => .next (t.haltInstr (.drwVxVyNibble x y n) .memoryOutOfRange (some a))

end Sys2Proof.Machine
end

