-- ==== Sys2Proof/Machine/IndexMemory.lean ====
section
/-! DEFINITION. The index register and the memory transfers through it (42_index_memory.md). -/

namespace Sys2Proof.Machine

/-- ANNN, `LD I, addr` (42_index_memory.md R99). -/
def execLdIAddr (nnn : Addr) (s : State) : Result := .next (s.setI (zextAddr nnn))

/-- FX1E, `ADD I, Vx`: modulo 2^16, no flag (42_index_memory.md R100). -/
def execAddIVx (x : Reg) (s : State) : Result := .next (s.setI (s.i + zextByte (s.getV x)))

/-- FX29, `LD F, Vx` (42_index_memory.md R101). -/
def execLdFVx (x : Reg) (s : State) : Result := .next (s.setI (glyphAddr s.cfg.fontIndexMask (s.getV x)))

/-- FX33, `LD B, Vx`: `I` is not changed; the digits before an address out of range stay written
(42_index_memory.md R102). -/
def execLdBVx (x : Reg) (s : State) : Result :=
  match State.storeBytes (s.dataAddr 0) (bcdDigits (s.getV x)) s with
  | (t, none) => .next t
  | (t, some a) => .next (t.haltInstr (.ldBVx x) .memoryOutOfRange (some a))

/-- FX55, `LD [I], Vx`: `I` is updated only when every byte is stored (42_index_memory.md R103). -/
def execLdMemVx (x : Reg) (s : State) : Result :=
  match State.storeBytes (s.dataAddr 0) ((regsUpTo x).map s.getV) s with
  | (t, none) => .next (t.setI (s.indexPast x))
  | (t, some a) => .next (t.haltInstr (.ldMemVx x) .memoryOutOfRange (some a))

/-- FX65, `LD Vx, [I]`: `I` is updated only when every register is loaded (42_index_memory.md R104). -/
def execLdVxMem (x : Reg) (s : State) : Result :=
  match State.loadRegs (s.dataAddr 0) (regsUpTo x) s with
  | (t, none) => .next (t.setI (s.indexPast x))
  | (t, some a) => .next (t.haltInstr (.ldVxMem x) .memoryOutOfRange (some a))

end Sys2Proof.Machine
end

