-- ==== Sys2Proof/Machine/TimersKeys.lean ====
section
/-! DEFINITION. Timer access and the keyboard instructions (43_timers_keys.md). -/

namespace Sys2Proof.Machine

/-- FX07, `LD Vx, DT` (43_timers_keys.md R106). -/
def execLdVxDt (x : Reg) (s : State) : Result := .next (s.setV x s.dt)

/-- FX15, `LD DT, Vx` (43_timers_keys.md R107). -/
def execLdDtVx (x : Reg) (s : State) : Result := .next (s.setDt (s.getV x))

/-- FX18, `LD ST, Vx`: the Sound capability is not called (43_timers_keys.md R108). -/
def execLdStVx (x : Reg) (s : State) : Result := .next (s.setSt (s.getV x))

/-- EX9E, `SKP Vx` (43_timers_keys.md R109). -/
def execSkpVx (x : Reg) (s : State) : Result :=
  match s.keyQuery (s.getV x) with
  | some p => .next (s.skipIf p)
  | none => .next (s.haltInstr (.skpVx x) .keyIndexOutOfRange (some (s.getV x).toNat))

/-- EXA1, `SKNP Vx` (43_timers_keys.md R110). -/
def execSknpVx (x : Reg) (s : State) : Result :=
  match s.keyQuery (s.getV x) with
  | some p => .next (s.skipIf (!p))
  | none => .next (s.haltInstr (.sknpVx x) .keyIndexOutOfRange (some (s.getV x).toNat))

/-- FX0A, `LD Vx, K`: the engine waits; `V[x]` is written on resume (43_timers_keys.md R111). -/
def execLdVxK (x : Reg) (s : State) : Result := .next (s.setEng (.waitingForKey x))

end Sys2Proof.Machine
end

