-- ==== Sys2Proof/Machine/Scheduler.lean ====
section
/-! DEFINITION. What the frame scheduler does around the `step()` calls of a tick: the input event, the key-wait
resume, the timer FSM and the end of the tick (60_exceptions.md R125, R126, R136, R138). -/

namespace Sys2Proof.Machine

/-- Whether the engine executes instructions (10_state.md R29). -/
def Engine.isRunning : Engine → Bool
  | .running => true
  | .waitingForKey _ => false
  | .halted _ => false

/-- Whether the engine is `Halted` (10_state.md R29). -/
def Engine.isHalted : Engine → Bool
  | .running => false
  | .waitingForKey _ => false
  | .halted _ => true

/-- The tick's input event, if it has one, goes to the keyboard (60_exceptions.md R136, R140). -/
def State.deliver (s : State) : Option InputEvent → State
  | some e => s.handleEvent e
  | none => s

/-- The start of a tick: "poll at most one pending input event" (60_exceptions.md R136). -/
def State.pollInput (s : State) : State :=
  match s.inputs with
  | [] => s
  | ev :: rest => { s with inputs := rest }.deliver ev

/-- `resume_attempt(d)` (60_exceptions.md R125). -/
def State.resumeAttempt (s : State) (d : Reg) : State :=
  match s.takeLastPressedKey with
  | (some k, t) => (t.setV d (BitVec.ofNat 8 k.val)).setEng .running
  | (none, t) => t

/-- One decrement of a timer that is above 0 (60_exceptions.md R126). -/
def countDown (b : Byte) : Byte := if b.toNat > 0 then b - 1 else b

/-- `tick_timers()` (60_exceptions.md R126). -/
def State.tickTimers (s : State) : State :=
  ((s.setDt (countDown s.dt)).setSt (countDown s.st)).setSound (decide (s.st.toNat > 0))

/-- A halted engine stops the scheduler at the end of the tick (60_exceptions.md R138). -/
def State.stopIfHalted (s : State) : State := if s.eng.isHalted then { s with sched := .stopped } else s

/-- The end of a tick: the timers, the render, which changes nothing, the stop after a halt; no `step()` of the next
tick has been made (60_exceptions.md R136). -/
def State.endTick (s : State) : State := { s.tickTimers.stopIfHalted with batch := 0 }

/-- One more `step()` call of this tick has been made (10_state.md R35). -/
def State.countStep (s : State) : State := { s with batch := s.batch + 1 }

/-- After a `step()` call: the batch goes on while the engine runs and `BATCH_SIZE` is not reached, else the tick ends
(60_exceptions.md R136, R137). -/
def State.afterStepCall (s : State) : State :=
  if s.eng.isRunning && decide (s.batch + 1 < s.cfg.batchSize) then s.countStep else s.countStep.endTick

end Sys2Proof.Machine
end

