-- ==== Sys2Proof/Machine/Cycle.lean ====
section
/-! DEFINITION. The instruction cycle `step()` (30_encoding.md R59), the tick of the frame scheduler as
60_exceptions.md R136 writes it, and the tick cut into steps of one instruction (log 4). -/

namespace Sys2Proof.Machine

/-- `dispatch(op, addr)`: the instruction's meaning, or the halt of an unsupported word (30_encoding.md R63, R69). -/
def State.dispatch (s : State) (op addr : Word) : Result :=
  match decodeWord s.cfg.strict59 op with
  | some i => exec i s
  | none => .next (s.raiseHalt .unsupportedOpcode (some op) addr none)

/-- `step()`: fetch, advance, decode, dispatch (30_encoding.md R59). -/
def State.stepCall (s : State) : Result :=
  match s.fetch with
  | .halt t => .next t
  | .word op addr t => t.dispatch op addr

/-- The batch of a tick: up to `k` calls of `step()`, stopping early when the engine no longer runs
(60_exceptions.md R136, R137). -/
def State.batchLoop : Nat → State → Result
  | 0, s => .next s
  | k + 1, s =>
    match s.stepCall with
    | .next t => if t.eng.isRunning then State.batchLoop k t.countStep else .next t.countStep
    | r => r

/-- What a tick does between its input event and its timers (60_exceptions.md R136). -/
def State.tickBody (s : State) : Result :=
  match s.eng with
  | .waitingForKey d => .next (s.resumeAttempt d)
  | .running => State.batchLoop s.cfg.batchSize s
  | .halted _ => .next s

/-- One whole tick of the frame scheduler, as 60_exceptions.md R136 writes it. -/
def State.tick (s : State) : Result :=
  match s.sched with
  | .stopped => .fault .schedulerStopped
  | .active =>
    match s.pollInput.tickBody with
    | .next t => .next t.endTick
    | r => r

/-- The start of a tick is taken together with its first `step()` call (log 4). -/
def State.beginTick (s : State) : State := if s.batch = 0 then s.pollInput else s

/-- A running engine makes one `step()` call, if the tick has one left, and goes on with the batch or ends the tick. -/
def State.runStep (s : State) : Result :=
  if s.batch < s.cfg.batchSize then
    match s.stepCall with
    | .next t => .next t.afterStepCall
    | r => r
  else .next s.endTick

/-- One step of the machine: one `step()` call of a running engine, with the start and the end of the tick attached to
the first and the last call of a tick; or one whole tick of a waiting engine; a stopped scheduler makes none
(60_exceptions.md R136, R138; log 4, log 9). -/
def State.cycle (s : State) : Result :=
  match s.sched with
  | .stopped => .fault .schedulerStopped
  | .active =>
    match s.beginTick.eng with
    | .running => s.beginTick.runStep
    | .waitingForKey d => .next (s.beginTick.resumeAttempt d).endTick
    | .halted _ => .next s.beginTick.endTick

end Sys2Proof.Machine
end

