-- ==== Sys2Proof/Machine/Loader.lean ====
section
/-! DEFINITION. The load, the block's one reset (70_reset_and_hazards.md R145 to R150). -/

namespace Sys2Proof.Machine

/-- Why a load does not proceed to execution (60_exceptions.md R121, 70_reset_and_hazards.md R148). -/
inductive LoadError where
  | romTooLarge
deriving DecidableEq, Repr

/-- `load(rom_bytes)` for a machine with the parameters `cfg`, in an environment that will send `inputs`: every state
element at its load value, the glyph table at 0x000 (`Memory.background`, R146), the ROM verbatim from 0x200 (R147); a
ROM longer than the program region is refused (R148). -/
def load (cfg : Config) (inputs : List (Option InputEvent)) (rom : List Byte) : Except LoadError State :=
  if rom.length > romMax then .error .romTooLarge
  else .ok { (State.storeBytes programBase rom (State.initial cfg)).1 with inputs := inputs }

end Sys2Proof.Machine
end

