-- ==== Sys2Proof/Machine/Step.lean ====
section
/-! DEFINITION. The step function the host reads, and how the host places an instruction where it fetches. -/

namespace Sys2Proof.Machine

/-- One step of the machine (`State.cycle`). -/
def step (s : State) : Host.Outcome State Fault Refusal := s.cycle

/-- The state with the instruction of the table's word `w` stored at `PC` and `PC + 1`, high byte first
(20_memory.md R47), where the next step of a running engine fetches it (log 16). -/
def State.withFetchWord (s : State) (nbits w : Nat) : State :=
  (s.poke s.pc.toNat ((tableWord nbits w).extractLsb' 8 8)).poke (s.pc.toNat + 1)
    ((tableWord nbits w).extractLsb' 0 8)

end Sys2Proof.Machine
end

