-- ==== Sys2Proof/Safety.lean ====
section
/-! DEFINITION. The terms claims are stated in: the invariant of a run, what a frame is, and the spec's tables of what
an instruction may touch. -/

namespace Sys2Proof.Machine

/-! ### The invariant of a run -/

/-- Memory is in canonical form. -/
abbrev State.MemCanonical (s : State) : Prop := Memory.wf s.cfg.glyphs s.mem

/-- The call stack has its size, and `SP` is in 0..`STACK_DEPTH` (10_state.md R25). -/
abbrev State.StackBounded (s : State) : Prop := s.stack.length = s.cfg.stackDepth ∧ s.sp ≤ s.cfg.stackDepth

/-- Between steps a tick is either not begun, or its engine runs and its batch is not used up (60_exceptions.md R137). -/
abbrev State.BatchBounded (s : State) : Prop := s.batch = 0 ∨ (s.eng = .running ∧ s.batch < s.cfg.batchSize)

/-- `SCHED` is `Stopped` exactly when `ENG` is `Halted`, between steps (10_state.md R35, 60_exceptions.md R138). -/
abbrev State.StoppedIffHalted (s : State) : Prop := s.sched = .stopped ↔ s.eng.isHalted = true

/-- `PC` is at most 0x10FE and every entry of the stack at most 0x1000, so that the 16-bit wrap of `PC` "is never
reached" (10_state.md R23). -/
abbrev State.PcBounded (s : State) : Prop := s.pc.toNat ≤ 0x10FE ∧ ∀ w ∈ s.stack, w.toNat ≤ 0x1000

/-- What holds of every state of a run. -/
abbrev State.Inv (s : State) : Prop :=
  s.MemCanonical ∧ s.StackBounded ∧ s.BatchBounded ∧ s.StoppedIffHalted ∧ s.PcBounded

/-- A safe state: the invariant holds and the engine has not halted (60_exceptions.md R118). -/
abbrev State.Safe (s : State) : Prop := s.Inv ∧ s.eng.isHalted = false

/-! ### Frames -/

/-- Every byte of memory reads in `t` as in `s`. -/
def SameMemory (s t : State) : Prop := ∀ a, t.byteAt a = s.byteAt a

/-- Every general register outside `rs` holds in `t` what it holds in `s`. -/
def SameRegsBut (rs : List Reg) (s t : State) : Prop := ∀ r, r ∉ rs → t.getV r = s.getV r

/-- `t` differs from `s` at most in the general registers of `rs`. -/
def OnlyRegs (rs : List Reg) (s t : State) : Prop := SameRegsBut rs s t ∧ SameMemory s t ∧ t = { s with v := t.v }

/-- `t` differs from `s` at most in `PC`. -/
def OnlyPc (s t : State) : Prop := SameRegsBut [] s t ∧ SameMemory s t ∧ t = { s with pc := t.pc }

/-- `t` differs from `s` at most in `I`. -/
def OnlyIndex (s t : State) : Prop := SameRegsBut [] s t ∧ SameMemory s t ∧ t = { s with i := t.i }

/-- `t` differs from `s` at most in `ENG`. -/
def OnlyEngine (s t : State) : Prop := SameRegsBut [] s t ∧ SameMemory s t ∧ t = { s with eng := t.eng }

/-- The halt record of an instruction `i` under execution in `s` (10_state.md R20, R31). -/
def haltOf (s : State) (i : Instr) (cause : HaltCause) (faultAddr : Option Nat) : Engine :=
  .halted { cause := cause, opcode := some (encode i), addr := s.pc - 2, faultAddr := faultAddr }

/-! ### The spec's tables -/

/-- The general registers an instruction may write (10_state.md R19). -/
def writtenRegs : Instr → List Reg
  | .ldVxByte x _ | .addVxByte x _ | .ldVxVy x _ | .orVxVy x _ | .andVxVy x _ | .xorVxVy x _ => [x]
  | .rndVxByte x _ | .ldVxDt x => [x]
  | .addVxVy x _ | .subVxVy x _ | .subnVxVy x _ | .shrVx x _ | .shlVx x _ => [x, vf]
  | .drwVxVyNibble _ _ _ => [vf]
  | .ldVxMem x => regsUpTo x
  | .cls | .ret | .jpAddr _ | .callAddr _ | .jpV0Addr _ => []
  | .seVxByte _ _ | .sneVxByte _ _ | .seVxVy _ _ _ | .sneVxVy _ _ _ | .skpVx _ | .sknpVx _ => []
  | .ldIAddr _ | .addIVx _ | .ldFVx _ | .ldBVx _ | .ldMemVx _ => []
  | .ldVxK _ | .ldDtVx _ | .ldStVx _ => []

/-- Whether an instruction is 2NNN or 00EE, the two that touch the call stack (10_state.md R26). -/
def touchesStack : Instr → Bool
  | .callAddr _ | .ret => true
  | _ => false

/-- Whether an instruction may leave `PC` other than it found it: the jumps, 2NNN, 00EE and the skips
(10_state.md R21). -/
def writesPc : Instr → Bool
  | .jpAddr _ | .jpV0Addr _ | .callAddr _ | .ret => true
  | .seVxByte _ _ | .sneVxByte _ _ | .seVxVy _ _ _ | .sneVxVy _ _ _ | .skpVx _ | .sknpVx _ => true
  | _ => false

/-- Whether an instruction is a writer of `I`: ANNN, FX1E, FX29, FX55, FX65 (10_state.md R24). -/
def writesIndex : Instr → Bool
  | .ldIAddr _ | .addIVx _ | .ldFVx _ | .ldMemVx _ | .ldVxMem _ => true
  | _ => false

/-- Whether an instruction writes memory: FX33, FX55 (20_memory.md R50). -/
def writesMemory : Instr → Bool
  | .ldBVx _ | .ldMemVx _ => true
  | _ => false

/-- Whether an instruction writes the frame buffer: 00E0, DXYN (10_state.md R32). -/
def writesDisplay : Instr → Bool
  | .cls | .drwVxVyNibble _ _ _ => true
  | _ => false

/-- The unsupported words of 30_encoding.md R69, by the field formulas of R60. -/
abbrev UnsupportedWord (strict : Bool) (op : Word) : Prop :=
  ((op >>> 12) &&& 0xF = 0x0 ∧ op ≠ 0x00E0 ∧ op ≠ 0x00EE) ∨
  ((op >>> 12) &&& 0xF = 0x8 ∧ op &&& 0xF ∈ [0x8#16, 0x9#16, 0xA#16, 0xB#16, 0xC#16, 0xD#16, 0xF#16]) ∨
  ((op >>> 12) &&& 0xF = 0xE ∧ op &&& 0xFF ∉ [0x9E#16, 0xA1#16]) ∨
  ((op >>> 12) &&& 0xF = 0xF ∧
    op &&& 0xFF ∉ [0x07#16, 0x0A#16, 0x15#16, 0x18#16, 0x1E#16, 0x29#16, 0x33#16, 0x55#16, 0x65#16]) ∨
  (strict = true ∧ ((op >>> 12) &&& 0xF = 0x5 ∨ (op >>> 12) &&& 0xF = 0x9) ∧ op &&& 0xF ≠ 0)

/-- A row of spec/opcode_table.json: its mask, its match, and its mask under `STRICT_5_9`. -/
structure OpcodeRow where
  mnemonic : String
  matchBits : Word
  mask : Word
  strictMask : Word
deriving DecidableEq, Repr

/-- Whether a word is one of the row's. -/
def OpcodeRow.covers (row : OpcodeRow) (strict : Bool) (op : Word) : Bool :=
  op &&& (if strict then row.strictMask else row.mask) == row.matchBits

/-- The row of the table an instruction stands for. -/
def opcodeRow : Instr → OpcodeRow
  | .cls => ⟨"CLS", 0x00E0, 0xFFFF, 0xFFFF⟩
  | .ret => ⟨"RET", 0x00EE, 0xFFFF, 0xFFFF⟩
  | .jpAddr _ => ⟨"JP_addr", 0x1000, 0xF000, 0xF000⟩
  | .callAddr _ => ⟨"CALL_addr", 0x2000, 0xF000, 0xF000⟩
  | .seVxByte _ _ => ⟨"SE_Vx__byte", 0x3000, 0xF000, 0xF000⟩
  | .sneVxByte _ _ => ⟨"SNE_Vx__byte", 0x4000, 0xF000, 0xF000⟩
  | .seVxVy _ _ _ => ⟨"SE_Vx__Vy", 0x5000, 0xF000, 0xF00F⟩
  | .ldVxByte _ _ => ⟨"LD_Vx__byte", 0x6000, 0xF000, 0xF000⟩
  | .addVxByte _ _ => ⟨"ADD_Vx__byte", 0x7000, 0xF000, 0xF000⟩
  | .ldVxVy _ _ => ⟨"LD_Vx__Vy", 0x8000, 0xF00F, 0xF00F⟩
  | .orVxVy _ _ => ⟨"OR_Vx__Vy", 0x8001, 0xF00F, 0xF00F⟩
  | .andVxVy _ _ => ⟨"AND_Vx__Vy", 0x8002, 0xF00F, 0xF00F⟩
  | .xorVxVy _ _ => ⟨"XOR_Vx__Vy", 0x8003, 0xF00F, 0xF00F⟩
  | .addVxVy _ _ => ⟨"ADD_Vx__Vy", 0x8004, 0xF00F, 0xF00F⟩
  | .subVxVy _ _ => ⟨"SUB_Vx__Vy", 0x8005, 0xF00F, 0xF00F⟩
  | .shrVx _ _ => ⟨"SHR_Vx", 0x8006, 0xF00F, 0xF00F⟩
  | .subnVxVy _ _ => ⟨"SUBN_Vx__Vy", 0x8007, 0xF00F, 0xF00F⟩
  | .shlVx _ _ => ⟨"SHL_Vx", 0x800E, 0xF00F, 0xF00F⟩
  | .sneVxVy _ _ _ => ⟨"SNE_Vx__Vy", 0x9000, 0xF000, 0xF00F⟩
  | .ldIAddr _ => ⟨"LD_I__addr", 0xA000, 0xF000, 0xF000⟩
  | .jpV0Addr _ => ⟨"JP_V0__addr", 0xB000, 0xF000, 0xF000⟩
  | .rndVxByte _ _ => ⟨"RND_Vx__byte", 0xC000, 0xF000, 0xF000⟩
  | .drwVxVyNibble _ _ _ => ⟨"DRW_Vx__Vy__nibble", 0xD000, 0xF000, 0xF000⟩
  | .skpVx _ => ⟨"SKP_Vx", 0xE09E, 0xF0FF, 0xF0FF⟩
  | .sknpVx _ => ⟨"SKNP_Vx", 0xE0A1, 0xF0FF, 0xF0FF⟩
  | .ldVxDt _ => ⟨"LD_Vx__DT", 0xF007, 0xF0FF, 0xF0FF⟩
  | .ldVxK _ => ⟨"LD_Vx__K", 0xF00A, 0xF0FF, 0xF0FF⟩
  | .ldDtVx _ => ⟨"LD_DT__Vx", 0xF015, 0xF0FF, 0xF0FF⟩
  | .ldStVx _ => ⟨"LD_ST__Vx", 0xF018, 0xF0FF, 0xF0FF⟩
  | .addIVx _ => ⟨"ADD_I__Vx", 0xF01E, 0xF0FF, 0xF0FF⟩
  | .ldFVx _ => ⟨"LD_F__Vx", 0xF029, 0xF0FF, 0xF0FF⟩
  | .ldBVx _ => ⟨"LD_B__Vx", 0xF033, 0xF0FF, 0xF0FF⟩
  | .ldMemVx _ => ⟨"LD__I___Vx", 0xF055, 0xF0FF, 0xF0FF⟩
  | .ldVxMem _ => ⟨"LD_Vx___I", 0xF065, 0xF0FF, 0xF0FF⟩

/-- Whether pixel (`px`, `py`) is one that the first `rows` rows of the sprite at `I`, drawn with its corner at
(`x0`, `y0`), toggle: the pixel lies in one of its 8 columns and `rows` rows, counted modulo 64 and 32, and the
sprite's bit there is 1 (44_display.md R114, R115). -/
def State.spriteCovers (s : State) (x0 y0 rows : Nat) (px : Fin 64) (py : Fin 32) : Bool :=
  let col := (px.val + 64 - x0 % 64) % 64
  let row := (py.val + 32 - y0 % 32) % 32
  decide (col < 8) && decide (row < rows) && (s.byteAt (s.dataAddr row)).getLsbD (7 - col)

/-- The coordinate register `r` gives DXYN: 0 for VF under `DRAW_VF_CLEAR_FIRST`, else its value (44_display.md R114). -/
def State.coordOf (s : State) (r : Reg) : Nat := if s.cfg.drawVfClearFirst ∧ r = vf then 0 else (s.getV r).toNat

end Sys2Proof.Machine
end

