-- ==== Sys2Proof/Certificates/Slice0/Obligations.lean ====
section
/-! DEFINITION. The statements for the provers. Each ranges over every state, the parameters of its machine and every
free value among them. Where a docstring names a decision D<n> (spec/92_eei_decisions.md) or a mark K<n>
(spec/93_implementation_defined.md), the statement rests on that choice of the spec's own, not on its source. -/

open Sys2Proof Sys2Proof.Machine

/-! ### Encoding -/

/-- The bytes of a well-formed instruction decode to it and leave the bytes after them, under either setting of
`STRICT_5_9` (30_encoding.md R60 to R68, R71; D12). That the bits an instruction ignores come back too is the model's
choice: they are operands of its constructor (log 12). -/
def Obligations.DecodeOfEncodeIsTheInstruction : Prop :=
  ∀ (strict : Bool) (i : Instr) (rest : List Byte), i.wellFormed strict = true →
    decode strict (encodeBytes i ++ rest) = .ok (i, rest)

/-- A word that decodes has exactly one instruction, which is well formed and is encoded by that word (30_encoding.md R63
to R70; D12). That no bit of a supported word is lost, the ignored ones among them (0x5121 and 0x8126 come back as
themselves), is the model's choice: the syntax keeps ignored bits as operands (log 12), on which the halt record rests
(log 11). -/
def Obligations.EncodeOfDecodeIsTheWord : Prop :=
  ∀ (strict : Bool) (op : Word) (i : Instr), decodeWord strict op = some i →
    encode i = op ∧ i.wellFormed strict = true

/-- The field formulas of 30_encoding.md R60 and how the fields overlap, for every word. -/
def Obligations.FieldsAreTheSpecsShiftsAndMasks : Prop :=
  ∀ op : Word,
    (fieldT op).toNat = ((op >>> 12) &&& 0xF).toNat ∧ (fieldX op).val = ((op >>> 8) &&& 0xF).toNat ∧
    (fieldY op).val = ((op >>> 4) &&& 0xF).toNat ∧ (fieldN op).toNat = (op &&& 0xF).toNat ∧
    (fieldNN op).toNat = (op &&& 0xFF).toNat ∧ (fieldNNN op).toNat = (op &&& 0xFFF).toNat ∧
    (fieldNN op).toNat = (fieldY op).val * 16 + (fieldN op).toNat ∧
    (fieldNNN op).toNat = (fieldX op).val * 256 + (fieldNN op).toNat

/-- The words that map to no instruction are exactly those 30_encoding.md R69 lists, and executing one halts with
UnsupportedOpcode, the word and its address, and changes nothing but `ENG` (D12, D19). -/
def Obligations.UnsupportedWordsAreTheListedOnesAndHalt : Prop :=
  ∀ (strict : Bool) (op : Word),
    (decodeWord strict op = none ↔ UnsupportedWord strict op) ∧
    ∀ (s : State) (addr : Word), s.cfg.strict59 = strict → UnsupportedWord strict op →
      ∃ t, s.dispatch op addr = .next t ∧ OnlyEngine s t ∧
        t.eng = .halted { cause := .unsupportedOpcode, opcode := some op, addr := addr, faultAddr := none }

/-- Every word that decodes is covered by the opcode table's row of its instruction and by no other instruction's row:
the table's masks and matches are the decoder's, and no two rows overlap (spec/opcode_table.json). -/
def Obligations.DecoderFollowsTheOpcodeTableMasks : Prop :=
  ∀ (strict : Bool) (op : Word) (j : Instr),
    (opcodeRow j).covers strict op = true ↔ ∃ i, decodeWord strict op = some i ∧ opcodeRow i = opcodeRow j

/-- A few words of 95_test_vectors.md, written out by hand, decode to the instructions they stand for. -/
def Obligations.WrittenOutWordsDecode : Prop :=
  decodeWord false 0x00E0 = some .cls ∧ decodeWord false 0x2300 = some (.callAddr 0x300) ∧
  decodeWord false 0x6A02 = some (.ldVxByte 0xA 0x02) ∧ decodeWord false 0x8124 = some (.addVxVy 1 2) ∧
  decodeWord false 0xB123 = some (.jpV0Addr 0x123) ∧ decodeWord false 0xD015 = some (.drwVxVyNibble 0 1 5) ∧
  decodeWord false 0xE29E = some (.skpVx 2) ∧ decodeWord false 0xF255 = some (.ldMemVx 2) ∧
  decodeWord false 0x5121 = some (.seVxVy 1 2 1) ∧ decodeWord true 0x5121 = none

/-! ### The instruction cycle -/

/-- A step of a running engine with a `step()` call left in its tick, at an address the fetch allows, whose two bytes
(high byte first) decode to `i`, is `exec i` on the state with `PC` two further; at the first call of a tick the
tick's input event has been taken first, and after the call the batch goes on or the tick ends (30_encoding.md R59,
20_memory.md R47, 60_exceptions.md R136; that a step is one `step()` call, with the start and the end of its tick
attached, is the model's choice, log 4). -/
def Obligations.StepRunsTheDecodedInstruction : Prop :=
  ∀ (s : State) (i : Instr), s.sched = .active → s.eng = .running → s.batch < s.cfg.batchSize →
    s.pc.toNat ≤ 0xFFE → (s.cfg.oddPcHalts = true → s.pc.toNat % 2 = 0) →
    decodeWord s.cfg.strict59 (s.byteAt s.pc.toNat ++ s.byteAt (s.pc.toNat + 1)) = some i →
    step s =
      match exec i (s.beginTick.setPc (s.pc + 2)) with
      | .next t => .next t.afterStepCall
      | r => r

/-- The checks of a fetch and their order (30_encoding.md R59, 60_exceptions.md R119; D4, D5): an odd `PC` under
`ODD_PC_HALTS` halts with MisalignedFetch, else a `PC` above 0xFFE halts with FetchOutOfRange; the record has no opcode
and the address `PC`; nothing but `ENG` changes. -/
def Obligations.FetchHaltsInOrder : Prop :=
  ∀ s : State,
    (s.cfg.oddPcHalts = true → s.pc.toNat % 2 = 1 →
      ∃ t, s.stepCall = .next t ∧ OnlyEngine s t ∧
        t.eng = .halted { cause := .misalignedFetch, opcode := none, addr := s.pc, faultAddr := none }) ∧
    (¬ (s.cfg.oddPcHalts = true ∧ s.pc.toNat % 2 = 1) → 0xFFE < s.pc.toNat →
      ∃ t, s.stepCall = .next t ∧ OnlyEngine s t ∧
        t.eng = .halted { cause := .fetchOutOfRange, opcode := none, addr := s.pc, faultAddr := none })

/-- A step stops only when the scheduler is `Stopped`: every active machine has a next state, whatever its program
(60_exceptions.md R138, R139). The fault of the `Stopped` scheduler is the model's choice (log 9). -/
def Obligations.OnlyAStoppedSchedulerStops : Prop :=
  ∀ s : State, (s.sched = .active → ∃ t, step s = .next t) ∧
    (s.sched = .stopped → step s = .fault .schedulerStopped)

/-! ### Control flow -/

/-- 40_control_flow.md R78: 1NNN sets `PC` to `nnn`, zero-extended, and changes nothing else. -/
def Obligations.JumpSetsPc : Prop :=
  ∀ (nnn : Addr) (s : State), encode (.jpAddr nnn) = 0x1#4 ++ nnn ∧
    ∃ t, exec (.jpAddr nnn) s = .next t ∧ t.pc.toNat = nnn.toNat ∧ OnlyPc s t

/-- BNNN sets `PC` to `nnn + V0`, not masked to 12 bits (40_control_flow.md R80; D20). -/
def Obligations.JumpWithOffsetAddsV0 : Prop :=
  ∀ (nnn : Addr) (s : State),
    ∃ t, exec (.jpV0Addr nnn) s = .next t ∧ t.pc.toNat = nnn.toNat + (s.getV 0).toNat ∧ OnlyPc s t

/-- 2NNN pushes the advanced `PC` and jumps; with a full stack it halts with StackOverflow and only `ENG` changes
(40_control_flow.md R79; D2, D3; the halt record is log 11). -/
def Obligations.CallPushesOrOverflows : Prop :=
  ∀ (nnn : Addr) (s : State), s.StackBounded →
    (s.sp < s.cfg.stackDepth →
      ∃ t, exec (.callAddr nnn) s = .next t ∧ t.pc.toNat = nnn.toNat ∧ t.sp = s.sp + 1 ∧
        t.stack[s.sp]? = some s.pc ∧ (∀ k, k ≠ s.sp → t.stack[k]? = s.stack[k]?) ∧
        SameMemory s t ∧ t = { s with pc := t.pc, stack := t.stack, sp := t.sp }) ∧
    (s.sp = s.cfg.stackDepth →
      ∃ t, exec (.callAddr nnn) s = .next t ∧ OnlyEngine s t ∧
        t.eng = haltOf s (.callAddr nnn) .stackOverflow none)

/-- 00EE pops `PC` from the stack and leaves the popped entry; with an empty stack it halts with StackUnderflow and
only `ENG` changes (40_control_flow.md R77; D3; the halt record is log 11). -/
def Obligations.ReturnPopsOrUnderflows : Prop :=
  ∀ s : State, s.StackBounded →
    (0 < s.sp →
      ∃ t, exec .ret s = .next t ∧ t.sp + 1 = s.sp ∧ s.stack[t.sp]? = some t.pc ∧ SameMemory s t ∧
        t = { s with pc := t.pc, sp := t.sp }) ∧
    (s.sp = 0 →
      ∃ t, exec .ret s = .next t ∧ OnlyEngine s t ∧ t.eng = haltOf s .ret .stackUnderflow none)

/-- A call and a later return that finds the call's entries on the stack restore `PC` to the address after the call and
the stack count, whatever else the state then holds, stale entries at `SP` and above among it (40_control_flow.md R77,
"restores PC to exactly the address immediately after the original call instruction"; D2, D3 for the room on the
stack). -/
def Obligations.ReturnUndoesCall : Prop :=
  ∀ (nnn : Addr) (s t u : State), s.StackBounded → s.sp < s.cfg.stackDepth → exec (.callAddr nnn) s = .next t →
    u.sp = t.sp → (∀ k, k < t.sp → u.stack[k]? = t.stack[k]?) →
    ∃ w, exec .ret u = .next w ∧ w.pc = s.pc ∧ w.sp = s.sp

/-- 40_control_flow.md R81: 3XNN skips exactly when `V[x] = nn`, and changes nothing but `PC`. -/
def Obligations.SkipIfEqualToByte : Prop :=
  ∀ (x : Reg) (nn : Byte) (s : State), encode (.seVxByte x nn) = 0x3#4 ++ (BitVec.ofFin x : Nibble) ++ nn ∧
    ∃ t, exec (.seVxByte x nn) s = .next t ∧ OnlyPc s t ∧
      t.pc = if s.getV x = nn then s.pc + 2 else s.pc

/-- 40_control_flow.md R82: 4XNN skips exactly when `V[x] ≠ nn`, and changes nothing but `PC`. -/
def Obligations.SkipIfNotEqualToByte : Prop :=
  ∀ (x : Reg) (nn : Byte) (s : State), encode (.sneVxByte x nn) = 0x4#4 ++ (BitVec.ofFin x : Nibble) ++ nn ∧
    ∃ t, exec (.sneVxByte x nn) s = .next t ∧ OnlyPc s t ∧
      t.pc = if s.getV x = nn then s.pc else s.pc + 2

/-- 5XYn skips exactly when VX = VY and 9XYn exactly when they differ, whatever the low nibble; nothing but `PC`
changes (40_control_flow.md R83, R84; D12). -/
def Obligations.SkipsOnRegisterPairs : Prop :=
  ∀ (x y : Reg) (low : Nibble) (s : State),
    (∃ t, exec (.seVxVy x y low) s = .next t ∧ OnlyPc s t ∧
      t.pc = if s.getV x = s.getV y then s.pc + 2 else s.pc) ∧
    (∃ t, exec (.sneVxVy x y low) s = .next t ∧ OnlyPc s t ∧
      t.pc = if s.getV x = s.getV y then s.pc else s.pc + 2)

/-- 10_state.md R21: how each instruction leaves `PC`, given that it holds `a + 2` (for 2NNN and 00EE with a stack in
bounds, 10_state.md R25), and that the resume of a key wait leaves it. -/
def Obligations.HowEachInstructionLeavesPc : Prop :=
  (∀ (i : Instr) (s t : State), exec i s = .next t →
    match i with
    | .jpAddr nnn => t.pc.toNat = nnn.toNat
    | .jpV0Addr nnn => t.pc.toNat = nnn.toNat + (s.getV 0).toNat
    | .callAddr nnn => s.StackBounded → t.pc.toNat = if s.sp < s.cfg.stackDepth then nnn.toNat else s.pc.toNat
    | .ret => s.StackBounded → if s.sp = 0 then t.pc = s.pc else s.stack[s.sp - 1]? = some t.pc
    | .seVxByte x nn => t.pc = if s.getV x = nn then s.pc + 2 else s.pc
    | .sneVxByte x nn => t.pc = if s.getV x ≠ nn then s.pc + 2 else s.pc
    | .seVxVy x y _ => t.pc = if s.getV x = s.getV y then s.pc + 2 else s.pc
    | .sneVxVy x y _ => t.pc = if s.getV x ≠ s.getV y then s.pc + 2 else s.pc
    | .skpVx x => t.pc = if s.keyQuery (s.getV x) = some true then s.pc + 2 else s.pc
    | .sknpVx x => t.pc = if s.keyQuery (s.getV x) = some false then s.pc + 2 else s.pc
    | _ => t.pc = s.pc) ∧
  ∀ (s : State) (d : Reg), (s.resumeAttempt d).pc = s.pc

/-! ### Register-file ALU -/

/-- 6XNN and 8XY0 load V[x] and 7XNN adds to it modulo 256; no flag is written and nothing else changes
(41_alu.md R87, R88, R89; K1, K2, K11). -/
def Obligations.LoadsAndAddImmediateWriteVx : Prop :=
  ∀ (x y : Reg) (nn : Byte) (s : State),
    (∃ t, exec (.ldVxByte x nn) s = .next t ∧ t.getV x = nn ∧ OnlyRegs [x] s t) ∧
    (∃ t, exec (.addVxByte x nn) s = .next t ∧ (t.getV x).toNat = ((s.getV x).toNat + nn.toNat) % 256 ∧
      OnlyRegs [x] s t) ∧
    (∃ t, exec (.ldVxVy x y) s = .next t ∧ t.getV x = s.getV y ∧ OnlyRegs [x] s t)

/-- 8XY1, 8XY2 and 8XY3 write the OR, AND and XOR, bit by bit, to V[x]; VF is not written as a flag and nothing else
changes (41_alu.md R90, R91, R92; D8, K3). -/
def Obligations.LogicWritesOnlyVx : Prop :=
  ∀ (x y : Reg) (s : State),
    (∃ t, exec (.orVxVy x y) s = .next t ∧ OnlyRegs [x] s t ∧
      ∀ k, (t.getV x).getLsbD k = ((s.getV x).getLsbD k || (s.getV y).getLsbD k)) ∧
    (∃ t, exec (.andVxVy x y) s = .next t ∧ OnlyRegs [x] s t ∧
      ∀ k, (t.getV x).getLsbD k = ((s.getV x).getLsbD k && (s.getV y).getLsbD k)) ∧
    (∃ t, exec (.xorVxVy x y) s = .next t ∧ OnlyRegs [x] s t ∧
      ∀ k, (t.getV x).getLsbD k = xor ((s.getV x).getLsbD k) ((s.getV y).getLsbD k))

/-- Addition and subtraction wrap modulo 256 and a shift moves by exactly one bit; the result stands in V[x] unless the
instruction's flag is written over it (41_alu.md R85, R86; D7, K1). -/
def Obligations.ArithmeticWrapsModulo256 : Prop :=
  ∀ (x y : Reg) (nn : Byte) (s : State),
    (∃ t, exec (.addVxByte x nn) s = .next t ∧ (t.getV x).toNat = ((s.getV x).toNat + nn.toNat) % 256) ∧
    (x ≠ vf →
      (∃ t, exec (.addVxVy x y) s = .next t ∧ (t.getV x).toNat = ((s.getV x).toNat + (s.getV y).toNat) % 256) ∧
      (∃ t, exec (.subVxVy x y) s = .next t ∧
        ((t.getV x).toNat : Int) = ((s.getV x).toNat - (s.getV y).toNat : Int) % 256) ∧
      (∃ t, exec (.subnVxVy x y) s = .next t ∧
        ((t.getV x).toNat : Int) = ((s.getV y).toNat - (s.getV x).toNat : Int) % 256) ∧
      (∃ t, exec (.shrVx x y) s = .next t ∧ (t.getV x).toNat = (s.getV x).toNat / 2) ∧
      (∃ t, exec (.shlVx x y) s = .next t ∧ (t.getV x).toNat = (s.getV x).toNat * 2 % 256))

/-- 8XY4: the sum modulo 256 in V[x], then VF = 1 iff it overflowed, also when `x` or `y` is VF; nothing else changes
(41_alu.md R86, R93; D7). -/
def Obligations.AddSetsSumThenCarry : Prop :=
  ∀ (x y : Reg) (s : State), ∃ t, exec (.addVxVy x y) s = .next t ∧ OnlyRegs [x, vf] s t ∧
    (x ≠ vf → (t.getV x).toNat = ((s.getV x).toNat + (s.getV y).toNat) % 256) ∧
    (t.getV vf).toNat = if 255 < (s.getV x).toNat + (s.getV y).toNat then 1 else 0

/-- 8XY5 and 8XY7: the difference modulo 256 in V[x], then VF = 1 iff no borrow occurred, also when `x` or `y` is VF;
nothing else changes (41_alu.md R86, R94, R96; D7). -/
def Obligations.SubtractionsSetDifferenceThenNoBorrow : Prop :=
  ∀ (x y : Reg) (s : State),
    (∃ t, exec (.subVxVy x y) s = .next t ∧ OnlyRegs [x, vf] s t ∧
      (x ≠ vf → (t.getV x).toNat = ((s.getV x).toNat + 256 - (s.getV y).toNat) % 256) ∧
      (t.getV vf).toNat = if (s.getV y).toNat ≤ (s.getV x).toNat then 1 else 0) ∧
    (∃ t, exec (.subnVxVy x y) s = .next t ∧ OnlyRegs [x, vf] s t ∧
      (x ≠ vf → (t.getV x).toNat = ((s.getV y).toNat + 256 - (s.getV x).toNat) % 256) ∧
      (t.getV vf).toNat = if (s.getV x).toNat ≤ (s.getV y).toNat then 1 else 0)

/-- 8XY6 and 8XYE: V[x] shifted by one, then VF = the bit shifted out, whatever the `y` field is and also when `x` is
VF; nothing else changes (41_alu.md R86, R95, R97; D7). -/
def Obligations.ShiftsSetResultThenBitShiftedOut : Prop :=
  ∀ (x y : Reg) (s : State),
    (∃ t, exec (.shrVx x y) s = .next t ∧ OnlyRegs [x, vf] s t ∧
      (x ≠ vf → (t.getV x).toNat = (s.getV x).toNat / 2) ∧ (t.getV vf).toNat = (s.getV x).toNat % 2) ∧
    (∃ t, exec (.shlVx x y) s = .next t ∧ OnlyRegs [x, vf] s t ∧
      (x ≠ vf → (t.getV x).toNat = (s.getV x).toNat * 2 % 256) ∧ (t.getV vf).toNat = (s.getV x).toNat / 128)

/-- CXNN writes a draw masked by `nn` to V[x]: the draw is the next free value, so the result may be any byte within
the mask, and the next CXNN takes another; nothing else changes (41_alu.md R98; D11, K5; the counter of the draws is
the model's own, log 7). -/
def Obligations.RandomWritesAMaskedFreeDraw : Prop :=
  ∀ (x : Reg) (nn : Byte) (s : State), ∃ t, exec (.rndVxByte x nn) s = .next t ∧
    t.getV x = Config.draw8 s.drawCount &&& nn ∧ (∀ k, nn.getLsbD k = false → (t.getV x).getLsbD k = false) ∧
    t.drawCount = s.drawCount + 1 ∧ SameRegsBut [x] s t ∧ SameMemory s t ∧
    t = { s with v := t.v, drawCount := t.drawCount }

/-- No instruction writes a general register outside its row of the table of 10_state.md R19 (K13 for the rows the source
does not name). -/
def Obligations.OnlyTheTablesRegistersAreWritten : Prop :=
  ∀ (i : Instr) (s t : State), exec i s = .next t → SameRegsBut (writtenRegs i) s t

/-! ### Index register and memory -/

/-- ANNN, FX1E and FX29 write `I` (modulo 2^16, not clamped) and nothing else (42_index_memory.md R99, R100, R101;
D9, D10, D20, K4, K9, K10). -/
def Obligations.IndexWritersSetOnlyI : Prop :=
  ∀ (nnn : Addr) (x : Reg) (s : State),
    (∃ t, exec (.ldIAddr nnn) s = .next t ∧ t.i.toNat = nnn.toNat ∧ OnlyIndex s t) ∧
    (∃ t, exec (.addIVx x) s = .next t ∧ t.i.toNat = (s.i.toNat + (s.getV x).toNat) % 65536 ∧ OnlyIndex s t) ∧
    (∃ t, exec (.ldFVx x) s = .next t ∧ OnlyIndex s t ∧
      t.i.toNat = 5 * if s.cfg.fontIndexMask then (s.getV x).toNat % 16 else (s.getV x).toNat)

/-- For a digit, FX29 points `I` at its glyph: the five bytes from there are the glyph table's, while they are as loaded,
whatever the rest of memory holds (42_index_memory.md R101, 10_state.md R37; D15, K10). -/
def Obligations.GlyphPointerFindsTheGlyph : Prop :=
  ∀ (x : Reg) (g : Fin 16) (s : State), (s.getV x).toNat = g.val →
    (∀ r : Fin 5, s.byteAt (5 * g.val + r.val) = (s.cfg.glyphs[g.val])[r.val]) →
    ∃ t, exec (.ldFVx x) s = .next t ∧
      ∀ r : Fin 5, t.memRead (t.dataAddr r.val) = some ((s.cfg.glyphs[g.val])[r.val])

/-- A byte written inside the space is read back, and every other address reads as before; outside the space neither
access is performed (20_memory.md R46, R51; D4). -/
def Obligations.MemoryReadsWhatWasWritten : Prop :=
  ∀ (s : State) (a : Nat) (b : Byte),
    (a ≤ 0xFFF → ∃ t, s.memWrite a b = some t ∧ t.memRead a = some b ∧
      (∀ c, c ≠ a → t.memRead c = s.memRead c) ∧ t = { s with mem := t.mem }) ∧
    (0xFFF < a → s.memWrite a b = none ∧ s.memRead a = none)

/-- FX33 with its three bytes inside memory stores the hundreds, tens and units of V[x] at `I`, `I + 1`, `I + 2`, and
changes nothing else, `I` included (42_index_memory.md R102). -/
def Obligations.BcdStoresThreeDigits : Prop :=
  ∀ (x : Reg) (s : State), s.dataAddr 2 ≤ 0xFFF →
    ∃ t, exec (.ldBVx x) s = .next t ∧ t = { s with mem := t.mem } ∧
      (t.byteAt (s.dataAddr 0)).toNat = (s.getV x).toNat / 100 ∧
      (t.byteAt (s.dataAddr 1)).toNat = (s.getV x).toNat / 10 % 10 ∧
      (t.byteAt (s.dataAddr 2)).toNat = (s.getV x).toNat % 10 ∧
      ∀ a, a < s.dataAddr 0 ∨ s.dataAddr 2 < a → t.byteAt a = s.byteAt a

/-- FX33 with a byte above 0xFFF halts at the first such address; the digits before it stay written and nothing else
changes (42_index_memory.md R102, 60_exceptions.md R120; D4, D18, D19; the halt record is log 11). -/
def Obligations.BcdHaltsAtTheFirstByteOutOfRange : Prop :=
  ∀ (x : Reg) (s : State), 0xFFF < s.dataAddr 2 →
    ∃ t, exec (.ldBVx x) s = .next t ∧
      t.eng = haltOf s (.ldBVx x) .memoryOutOfRange (some (max (s.dataAddr 0) 0x1000)) ∧
      t = { s with mem := t.mem, eng := t.eng } ∧
      (∀ k, k < 3 → s.dataAddr k ≤ 0xFFF →
        (t.byteAt (s.dataAddr k)).toNat =
          [(s.getV x).toNat / 100, (s.getV x).toNat / 10 % 10, (s.getV x).toNat % 10].getD k 0) ∧
      ∀ a, a < s.dataAddr 0 ∨ 0xFFF < a → t.byteAt a = s.byteAt a

/-- FX55 with all its bytes inside memory stores V[0]..V[x] from `I` and leaves `I` one past the last; nothing else
changes (42_index_memory.md R103; D20). -/
def Obligations.BlockStoreWritesRegistersAndAdvancesI : Prop :=
  ∀ (x : Reg) (s : State), s.dataAddr x.val ≤ 0xFFF →
    ∃ t, exec (.ldMemVx x) s = .next t ∧ t = { s with mem := t.mem, i := t.i } ∧
      t.i.toNat = (s.i.toNat + x.val + 1) % 65536 ∧
      (∀ r : Reg, r ≤ x → t.byteAt (s.dataAddr r.val) = s.getV r) ∧
      ∀ a, a < s.dataAddr 0 ∨ s.dataAddr x.val < a → t.byteAt a = s.byteAt a

/-- FX55 with a byte above 0xFFF halts at the first such address; the bytes before it stay written, `I` and everything
else keep their values (42_index_memory.md R103, 60_exceptions.md R120; D4, D18, D19; the halt record is log 11). -/
def Obligations.BlockStoreHaltsAtTheFirstByteOutOfRange : Prop :=
  ∀ (x : Reg) (s : State), 0xFFF < s.dataAddr x.val →
    ∃ t, exec (.ldMemVx x) s = .next t ∧
      t.eng = haltOf s (.ldMemVx x) .memoryOutOfRange (some (max (s.dataAddr 0) 0x1000)) ∧
      t = { s with mem := t.mem, eng := t.eng } ∧
      (∀ r : Reg, r ≤ x → s.dataAddr r.val ≤ 0xFFF → t.byteAt (s.dataAddr r.val) = s.getV r) ∧
      ∀ a, a < s.dataAddr 0 ∨ 0xFFF < a → t.byteAt a = s.byteAt a

/-- FX65 with all its bytes inside memory loads V[0]..V[x] from `I` and leaves `I` one past the last; nothing else
changes (42_index_memory.md R104; D20). -/
def Obligations.BlockLoadReadsRegistersAndAdvancesI : Prop :=
  ∀ (x : Reg) (s : State), s.dataAddr x.val ≤ 0xFFF →
    ∃ t, exec (.ldVxMem x) s = .next t ∧ t = { s with v := t.v, i := t.i } ∧ SameMemory s t ∧
      t.i.toNat = (s.i.toNat + x.val + 1) % 65536 ∧
      (∀ r : Reg, r ≤ x → t.getV r = s.byteAt (s.dataAddr r.val)) ∧ ∀ r : Reg, x < r → t.getV r = s.getV r

/-- FX65 with a byte above 0xFFF halts at the first such address; the registers before it stay loaded, `I` and
everything else keep their values (42_index_memory.md R104, 60_exceptions.md R120; D4, D18, D19; the halt record is
log 11). -/
def Obligations.BlockLoadHaltsAtTheFirstByteOutOfRange : Prop :=
  ∀ (x : Reg) (s : State), 0xFFF < s.dataAddr x.val →
    ∃ t, exec (.ldVxMem x) s = .next t ∧
      t.eng = haltOf s (.ldVxMem x) .memoryOutOfRange (some (max (s.dataAddr 0) 0x1000)) ∧
      t = { s with v := t.v, eng := t.eng } ∧ SameMemory s t ∧
      ∀ r : Reg, t.getV r = if r ≤ x ∧ s.dataAddr r.val ≤ 0xFFF then s.byteAt (s.dataAddr r.val) else s.getV r

/-- An instruction other than FX33 and FX55 leaves every byte of memory, one other than 00E0 and DXYN every pixel, and
one other than the five writers of `I` leaves `I` (20_memory.md R50, 10_state.md R24, R32; K13). -/
def Obligations.OnlyTheNamedWritersTouchMemoryDisplayAndIndex : Prop :=
  ∀ (i : Instr) (s t : State), exec i s = .next t →
    (writesMemory i = false → SameMemory s t ∧ t.mem = s.mem) ∧
    (writesDisplay i = false → t.fb = s.fb) ∧ (writesIndex i = false → t.i = s.i)

/-- 10_state.md R26: an instruction other than 2NNN and 00EE neither writes the call stack or `SP` nor reads them: with
any other stack it does the same to everything else; and no instruction observes an entry at index `SP` or above: with
other such entries it does the same to everything else and to the entries then held. -/
def Obligations.StackIsPrivateToCallAndReturn : Prop :=
  (∀ (i : Instr) (s : State) (stack : List Word) (sp : Nat), touchesStack i = false →
    ∃ t, exec i s = .next t ∧ t.stack = s.stack ∧ t.sp = s.sp ∧
      exec i { s with stack := stack, sp := sp } = .next { t with stack := stack, sp := sp }) ∧
  ∀ (i : Instr) (s : State) (stack : List Word), stack.length = s.stack.length →
    (∀ k, k < s.sp → stack[k]? = s.stack[k]?) →
    ∃ t u, exec i s = .next t ∧ exec i { s with stack := stack } = .next u ∧ u = { t with stack := u.stack } ∧
      ∀ k, k < t.sp → u.stack[k]? = t.stack[k]?

/-- No instruction touches the parameters, the sound output, the scheduler, the keyboard or the inputs, and only FX15,
FX18 and CXNN touch the delay timer, the sound timer and the draws (10_state.md R27, R28, R33, R34, R35, R39). -/
def Obligations.InstructionsLeaveSchedulerKeyboardAndTimers : Prop :=
  ∀ (i : Instr) (s t : State), exec i s = .next t →
    t.cfg = s.cfg ∧ t.soundOn = s.soundOn ∧ t.sched = s.sched ∧ t.batch = s.batch ∧
    t.keysDown = s.keysDown ∧ t.lastKey = s.lastKey ∧ t.inputs = s.inputs ∧
    ((∀ x, i ≠ .ldDtVx x) → t.dt = s.dt) ∧ ((∀ x, i ≠ .ldStVx x) → t.st = s.st) ∧
    ((∀ x nn, i ≠ .rndVxByte x nn) → t.drawCount = s.drawCount)

/-! ### Display -/

/-- 00E0 clears every pixel and changes nothing else (44_display.md R113; D31). -/
def Obligations.ClearScreenUnsetsEveryPixel : Prop :=
  ∀ s : State, encode .cls = 0x00E0 ∧
    ∃ t, exec .cls s = .next t ∧ (∀ px py, t.pixel px py = false) ∧ SameRegsBut [] s t ∧ SameMemory s t ∧
      t = { s with fb := t.fb }

/-- DXYN whose rows lie inside memory toggles exactly the pixels its sprite covers, wrapped modulo 64 and 32, and sets
VF to 1 iff one of them was set, else 0; nothing else changes (44_display.md R114, R115; D14, D15, D30). -/
def Obligations.DrawXorsTheSpriteAndReportsCollision : Prop :=
  ∀ (x y : Reg) (n : Nibble) (s : State), (n.toNat = 0 ∨ s.dataAddr (n.toNat - 1) ≤ 0xFFF) →
    ∃ t, exec (.drwVxVyNibble x y n) s = .next t ∧
      (∀ px py, t.pixel px py =
        xor (s.pixel px py) (s.spriteCovers (s.coordOf x) (s.coordOf y) n.toNat px py)) ∧
      ((∃ px py, s.pixel px py = true ∧ s.spriteCovers (s.coordOf x) (s.coordOf y) n.toNat px py = true) →
        t.getV vf = 1) ∧
      ((¬ ∃ px py, s.pixel px py = true ∧ s.spriteCovers (s.coordOf x) (s.coordOf y) n.toNat px py = true) →
        t.getV vf = 0) ∧
      SameRegsBut [vf] s t ∧ SameMemory s t ∧ t = { s with v := t.v, fb := t.fb }

/-- DXYN with a row above 0xFFF halts at the first such address; the rows before it stay drawn, VF is 0, and nothing
else changes (44_display.md R114, 60_exceptions.md R120; D4, D14, D15, D18, D19, D30; the halt record is log 11). -/
def Obligations.DrawHaltsAtTheFirstRowOutOfRange : Prop :=
  ∀ (x y : Reg) (n : Nibble) (s : State), n.toNat ≠ 0 → 0xFFF < s.dataAddr (n.toNat - 1) →
    ∃ t, exec (.drwVxVyNibble x y n) s = .next t ∧
      t.eng = haltOf s (.drwVxVyNibble x y n) .memoryOutOfRange (some (max (s.dataAddr 0) 0x1000)) ∧
      (∀ px py, t.pixel px py =
        xor (s.pixel px py) (s.spriteCovers (s.coordOf x) (s.coordOf y) (0x1000 - s.dataAddr 0) px py)) ∧
      t.getV vf = 0 ∧ SameRegsBut [vf] s t ∧ SameMemory s t ∧ t = { s with v := t.v, fb := t.fb, eng := t.eng }

/-- Drawing the same sprite twice at the same place gives back the screen, and the second draw reports a collision
exactly when the sprite covers a pixel that was unset before the first; so, on a screen with no pixel set, exactly when
one of its rows has a bit set. The collision clause is the model's own reading, DEDUCED from 44_display.md R114 (log 21):
95_test_vectors.md E5 and 90_conflicts.md C11 say that the second draw collides for every sprite with a set bit, and on
a screen whose covered pixels are all set R114 does not. The place is the same both times for every pair of registers
under `DRAW_VF_CLEAR_FIRST` and for registers other than VF under either setting; for VF otherwise, where the first draw
leaves VF as it was (D14, D15, D30). -/
def Obligations.DrawingTwiceRestoresTheScreen : Prop :=
  ∀ (x y : Reg) (n : Nibble) (s : State), (n.toNat = 0 ∨ s.dataAddr (n.toNat - 1) ≤ 0xFFF) →
    ∃ t, exec (.drwVxVyNibble x y n) s = .next t ∧
      ((s.cfg.drawVfClearFirst = true ∨ (x ≠ vf ∧ y ≠ vf)) → t.coordOf x = s.coordOf x ∧ t.coordOf y = s.coordOf y) ∧
      (t.coordOf x = s.coordOf x → t.coordOf y = s.coordOf y →
        ∃ u, exec (.drwVxVyNibble x y n) t = .next u ∧ u.fb = s.fb ∧
          (u.getV vf = 1 ↔ ∃ px py, s.pixel px py = false ∧
            s.spriteCovers (s.coordOf x) (s.coordOf y) n.toNat px py = true) ∧
          ((∀ px py, s.pixel px py = false) →
            (u.getV vf = 1 ↔ ∃ r, r < n.toNat ∧ s.byteAt (s.dataAddr r) ≠ 0)))

/-! ### Timers and keys -/

/-- FX07, FX15 and FX18 move between V[x] and the timers and change nothing else; FX18 does not touch the sound output
(43_timers_keys.md R106, R107, R108; D16, K6, K7, K8). -/
def Obligations.TimerMovesTouchOnlyTheirTarget : Prop :=
  ∀ (x : Reg) (s : State),
    (∃ t, exec (.ldVxDt x) s = .next t ∧ t.getV x = s.dt ∧ OnlyRegs [x] s t) ∧
    (∃ t, exec (.ldDtVx x) s = .next t ∧ SameRegsBut [] s t ∧ SameMemory s t ∧ t = { s with dt := s.getV x }) ∧
    (∃ t, exec (.ldStVx x) s = .next t ∧ SameRegsBut [] s t ∧ SameMemory s t ∧ t = { s with st := s.getV x })

/-- EX9E skips exactly when the key named by VX is held and EXA1 exactly when it is not; nothing but `PC` changes. A
value above 15 under the policy `mask` names the key of its low nibble, and under `not_pressed` none that is held
(43_timers_keys.md R109, R110, R112; D13, D26). -/
def Obligations.KeySkipsFollowTheHeldKey : Prop :=
  ∀ (x : Reg) (s : State), ((s.getV x).toNat ≤ 15 ∨ s.cfg.keyIndexPolicy ≠ .halt) →
    ∃ p : Bool,
      ((s.getV x).toNat ≤ 15 ∨ s.cfg.keyIndexPolicy = .mask → p = s.keysDown.getLsbD ((s.getV x).toNat % 16)) ∧
      (15 < (s.getV x).toNat ∧ s.cfg.keyIndexPolicy = .notPressed → p = false) ∧
      (∃ t, exec (.skpVx x) s = .next t ∧ OnlyPc s t ∧ t.pc = if p then s.pc + 2 else s.pc) ∧
      (∃ t, exec (.sknpVx x) s = .next t ∧ OnlyPc s t ∧ t.pc = if p then s.pc else s.pc + 2)

/-- EX9E and EXA1 with VX above 15 under the policy `halt` halt with KeyIndexOutOfRange and the value; only `ENG`
changes (43_timers_keys.md R112; D13, D19; the halt record is log 11). -/
def Obligations.KeySkipsHaltOnAKeyOutOfRange : Prop :=
  ∀ (x : Reg) (s : State), 15 < (s.getV x).toNat → s.cfg.keyIndexPolicy = .halt →
    (∃ t, exec (.skpVx x) s = .next t ∧ OnlyEngine s t ∧
      t.eng = haltOf s (.skpVx x) .keyIndexOutOfRange (some (s.getV x).toNat)) ∧
    (∃ t, exec (.sknpVx x) s = .next t ∧ OnlyEngine s t ∧
      t.eng = haltOf s (.sknpVx x) .keyIndexOutOfRange (some (s.getV x).toNat))

/-- FX0A makes the engine wait with destination `x` and changes nothing else, V[x] included; the rest of the batch is
not executed (the step that runs it ends the tick), and the resume, on a later tick, takes the latched key: it writes it
to V[x], clears the latch, runs again, fetches nothing and changes nothing else. With no key latched a resume attempt
changes nothing (43_timers_keys.md R111, 60_exceptions.md R125, R133, R137; D26, D34; log 4). -/
def Obligations.WaitForKeySuspendsAndResumes : Prop :=
  ∀ (x : Reg) (s : State), encode (.ldVxK x) = 0xF#4 ++ (BitVec.ofFin x : Nibble) ++ 0x0A#8 ∧
    (∃ t, exec (.ldVxK x) s = .next t ∧ t.eng = .waitingForKey x ∧ OnlyEngine s t ∧
      t.afterStepCall.batch = 0 ∧ t.afterStepCall.eng = .waitingForKey x) ∧
    (∀ k : Key, s.lastKey = some k →
      (s.resumeAttempt x).eng = .running ∧ ((s.resumeAttempt x).getV x).toNat = k.val ∧
      (s.resumeAttempt x).lastKey = none ∧ SameRegsBut [x] s (s.resumeAttempt x) ∧ SameMemory s (s.resumeAttempt x) ∧
      s.resumeAttempt x = { s with v := (s.resumeAttempt x).v, eng := .running, lastKey := none }) ∧
    (s.lastKey = none → s.resumeAttempt x = s)

/-! ### The scheduler -/

/-- The steps of a tick add up to the tick of 60_exceptions.md R136: from the start of a tick, some `k` of 1 to
`BATCH_SIZE` steps reach exactly the state `State.tick` gives, no earlier step does, and a running tick of fewer than
`BATCH_SIZE` steps ends with an engine that no longer runs (R137). How a tick is cut into steps is the model's choice
(log 4). -/
def Obligations.StepsAddUpToTheTick : Prop :=
  ∀ s : State, s.sched = .active → s.batch = 0 → 0 < s.cfg.batchSize →
    ∃ k t, 1 ≤ k ∧ k ≤ s.cfg.batchSize ∧ s.tick = .next t ∧ core.run k s = .next t ∧ t.batch = 0 ∧
      (∀ j u, 0 < j → j < k → core.run j s = .next u → u.batch = j ∧ u.eng = .running) ∧
      (s.eng = .running → k < s.cfg.batchSize → t.eng ≠ .running)

/-- `tick_timers()`: each timer above 0 goes down by one, none below 0, the two apart from each other; the sound is on
exactly when the sound timer was above 0; nothing else changes (60_exceptions.md R126, R127; D16, D25). -/
def Obligations.TickTimersCountDown : Prop :=
  ∀ s : State,
    s.tickTimers.dt.toNat = s.dt.toNat - 1 ∧ s.tickTimers.st.toNat = s.st.toNat - 1 ∧
    (s.tickTimers.soundOn = true ↔ 0 < s.st.toNat) ∧
    s.tickTimers = { s with dt := s.tickTimers.dt, st := s.tickTimers.st, soundOn := s.tickTimers.soundOn }

/-- The timers are not decremented inside a batch: a step that does not end its tick leaves the sound output, and
leaves each timer unless its instruction is the one that writes it (70_reset_and_hazards.md R155, 60_exceptions.md
R126; that a tick's last step takes its end with it is the model's choice, log 4). -/
def Obligations.TimersAreNotDecrementedInsideABatch : Prop :=
  ∀ s t : State, step s = .next t → t.batch ≠ 0 →
    t.soundOn = s.soundOn ∧
    (t.dt = s.dt ∨ ∃ x, t.dt = s.getV x ∧
      decodeWord s.cfg.strict59 (s.byteAt s.pc.toNat ++ s.byteAt (s.pc.toNat + 1)) = some (.ldDtVx x)) ∧
    (t.st = s.st ∨ ∃ x, t.st = s.getV x ∧
      decodeWord s.cfg.strict59 (s.byteAt s.pc.toNat ++ s.byteAt (s.pc.toNat + 1)) = some (.ldStVx x))

/-- The step whose `step()` call is the last of its tick (it halted, it executed FX0A, or `BATCH_SIZE` calls are made)
counts each timer down once and never below 0, with the sound on exactly when the sound timer was above 0, and stops the
scheduler exactly when the engine is halted; the next tick is to begin, and everything else stays as the call left it, the
halt record too (60_exceptions.md R126, R136, R137, R138; D16, D17; that the step takes the end of its tick with it is log
4). -/
def Obligations.HaltingStepTicksTimersAndStops : Prop :=
  ∀ s u : State, s.sched = .active → s.eng = .running → s.batch < s.cfg.batchSize →
    s.beginTick.stepCall = .next u → (u.eng ≠ .running ∨ s.cfg.batchSize ≤ s.batch + 1) →
    ∃ t, step s = .next t ∧
      t.dt.toNat = u.dt.toNat - 1 ∧ t.st.toNat = u.st.toNat - 1 ∧ (t.soundOn = true ↔ 0 < u.st.toNat) ∧
      t.eng = u.eng ∧ (u.eng.isHalted = true → t.sched = .stopped) ∧ (u.eng.isHalted = false → t.sched = .active) ∧
      t = { u with dt := t.dt, st := t.st, soundOn := t.soundOn, sched := t.sched, batch := 0 }

/-- Once the engine is `Halted` no `step()` is called, so no register, byte or pixel ever changes again; the scheduler
stops at the end of that tick, whatever the cause, and no step follows (60_exceptions.md R118, R138; D17; that a
`Stopped` scheduler answers a fault is log 9). -/
def Obligations.HaltIsTerminal : Prop :=
  ∀ (s t : State) (h : HaltRecord) (n : Nat), s.eng = .halted h → core.run n s = .next t →
    t.eng = .halted h ∧ t.v = s.v ∧ t.pc = s.pc ∧ t.i = s.i ∧ t.stack = s.stack ∧ t.sp = s.sp ∧
    t.mem = s.mem ∧ t.fb = s.fb ∧ t.drawCount = s.drawCount ∧ (0 < n → t.sched = .stopped) ∧ n ≤ 1

/-- The transitions of `ENG`, from the load on, and no other (60_exceptions.md R124; D26 for the latched key; log 4
for what a step is). -/
def Obligations.EngineMakesOnlyTheSpecsTransitions : Prop :=
  (∀ (cfg : Config) (inputs : List (Option InputEvent)) (rom : List Byte) (s : State),
    load cfg inputs rom = .ok s → s.eng = .running) ∧
  (∀ (i : Instr) (s t : State), s.eng = .running → exec i s = .next t →
    match t.eng with
    | .running => ∀ x, i ≠ .ldVxK x
    | .waitingForKey x => i = .ldVxK x
    | .halted _ => ∀ x, i ≠ .ldVxK x) ∧
  ∀ s t : State, step s = .next t →
    match s.eng with
    | .running => ∀ x, t.eng = .waitingForKey x →
        decodeWord s.cfg.strict59 (s.byteAt s.pc.toNat ++ s.byteAt (s.pc.toNat + 1)) = some (.ldVxK x)
    | .waitingForKey d =>
        (∃ k, s.beginTick.lastKey = some k ∧ t.eng = .running ∧ (t.getV d).toNat = k.val) ∨
        (s.beginTick.lastKey = none ∧ t.eng = .waitingForKey d)
    | .halted h => t.eng = .halted h

/-- In `WaitingForKey` no instruction is executed; every register, memory byte and pixel is kept, but for the
destination when the step resumes, and only a latched key press resumes; the timers keep running. A `Halted` engine
stays halted (60_exceptions.md R143, R125, R126; D16, D26; a step of a waiting engine is one tick, log 4). -/
def Obligations.WaitingKeepsEverythingButTimers : Prop :=
  (∀ (s t : State) (d : Reg), s.eng = .waitingForKey d → step s = .next t →
    t.pc = s.pc ∧ t.i = s.i ∧ t.stack = s.stack ∧ t.sp = s.sp ∧ t.fb = s.fb ∧ SameMemory s t ∧
    SameRegsBut [d] s t ∧ (s.beginTick.lastKey = none → t.getV d = s.getV d ∧ t.eng = .waitingForKey d) ∧
    (t.eng = .running → ∃ k, s.beginTick.lastKey = some k) ∧
    t.dt.toNat = s.dt.toNat - 1 ∧ t.st.toNat = s.st.toNat - 1 ∧ (t.soundOn = true ↔ 0 < s.st.toNat)) ∧
  ∀ (s t : State) (h : HaltRecord), s.eng = .halted h → step s = .next t → t.eng = .halted h

/-- A key press holds its key and latches it, a release lets go of the key and leaves the latch, any other event changes
nothing; no other key and nothing else changes (60_exceptions.md R131; D26, D28). -/
def Obligations.KeyEventsUpdateHeldKeysAndLatch : Prop :=
  ∀ (s : State) (k : Key),
    (s.handleEvent (.keyDown k)).lastKey = some k ∧ (s.handleEvent (.keyUp k)).lastKey = s.lastKey ∧
    (∀ j : Key, (s.handleEvent (.keyDown k)).isPressed j = (decide (j = k) || s.isPressed j)) ∧
    (∀ j : Key, (s.handleEvent (.keyUp k)).isPressed j = (!decide (j = k) && s.isPressed j)) ∧
    (∀ e, s.handleEvent e =
      { s with keysDown := (s.handleEvent e).keysDown, lastKey := (s.handleEvent e).lastKey }) ∧
    s.handleEvent .other = s

/-- Each tick takes exactly one of the environment's inputs, hands its event, if there is one, to the keyboard before
anything else of the tick, and no step inside the tick takes another; the keyboard a step leaves is the one that event
left, but for the latch, which a waiting engine empties; no step changes the parameters (60_exceptions.md R136, R140,
R131, R133, 10_state.md R39; D26, D28). That a tick's input is taken in the same step as the tick's first call is the
model's choice (log 4), that the inputs stand in the state, and that a tick past the end of the list has none, is log 6,
and that the parameters stand in it is log 1. -/
def Obligations.OneInputPerTickAndFixedParameters : Prop :=
  (∀ s t : State, step s = .next t →
    t.cfg = s.cfg ∧ (t.inputs = if s.batch = 0 then s.inputs.tail else s.inputs) ∧
    t.keysDown = s.beginTick.keysDown ∧
    t.lastKey = (match s.eng with
      | .waitingForKey _ => none
      | _ => s.beginTick.lastKey)) ∧
  (∀ (s : State) (e : InputEvent) (rest : List (Option InputEvent)), s.batch = 0 → s.inputs = some e :: rest →
    s.beginTick = ({ s with inputs := rest } : State).handleEvent e) ∧
  (∀ (s : State) (rest : List (Option InputEvent)), s.batch = 0 → s.inputs = none :: rest →
    s.beginTick = { s with inputs := rest }) ∧
  (∀ s : State, s.inputs = [] → s.beginTick = s) ∧
  (∀ s : State, s.batch ≠ 0 → s.beginTick = s)

/-! ### Load, reset and the invariant -/

/-- A successful load has the glyph table at 0x000, starts at 0x200 with a running engine and an active scheduler, and
(for a tick that makes a call at all) its first step begins by executing the word at 0x200: the instruction it decodes
to, or the halt of an unsupported word (70_reset_and_hazards.md R146, R149; that the step takes the start and the end of
its tick with it is log 4). -/
def Obligations.LoadCopiesGlyphsAndStartsAt200 : Prop :=
  ∀ (cfg : Config) (inputs : List (Option InputEvent)) (rom : List Byte) (s : State),
    load cfg inputs rom = .ok s →
    (∀ (g : Fin 16) (r : Fin 5), s.byteAt (5 * g.val + r.val) = (cfg.glyphs[g.val])[r.val]) ∧
    s.pc = 0x200 ∧ s.eng = .running ∧ s.sched = .active ∧
    (0 < cfg.batchSize →
      ∃ u, step s = .next u.afterStepCall ∧
        (∀ i, decodeWord cfg.strict59 (s.byteAt 0x200 ++ s.byteAt 0x201) = some i →
          exec i (s.beginTick.setPc 0x202) = .next u) ∧
        (decodeWord cfg.strict59 (s.byteAt 0x200 ++ s.byteAt 0x201) = none →
          u = (s.beginTick.setPc 0x202).raiseHalt .unsupportedOpcode (some (s.byteAt 0x200 ++ s.byteAt 0x201)) 0x200
            none))

/-- The load copies the ROM verbatim from 0x200, leaves 0 in the rest of memory and every register and pixel, and
refuses a ROM of more than 3584 bytes (10_state.md R38, 70_reset_and_hazards.md R147, R148, R150; D6, D24; log 5, log
6). -/
def Obligations.LoadCopiesTheRomVerbatimOrFails : Prop :=
  ∀ (cfg : Config) (inputs : List (Option InputEvent)) (rom : List Byte),
    (3584 < rom.length → load cfg inputs rom = .error .romTooLarge) ∧
    (rom.length ≤ 3584 → ∃ s, load cfg inputs rom = .ok s ∧
      (∀ (j : Nat) (h : j < rom.length), s.byteAt (0x200 + j) = rom[j]) ∧
      (∀ a, 80 ≤ a → a < 0x200 ∨ 0x200 + rom.length ≤ a → s.byteAt a = 0) ∧
      (∀ r, s.getV r = 0) ∧ s.i = 0 ∧ s.sp = 0 ∧ s.dt = 0 ∧ s.st = 0 ∧ (∀ px py, s.pixel px py = false) ∧
      s.soundOn = false ∧ s.keysDown = 0 ∧ s.lastKey = none ∧ s.batch = 0 ∧ s.cfg = cfg ∧ s.inputs = inputs)

/-- The state after reset meets the invariant of a run (10_state.md R38; D6; the canonical form of memory is log 13,
the batch counter log 5). -/
def Obligations.ResetMeetsTheInvariant : Prop := State.reset.Inv

/-- Every loaded state meets the invariant of a run (10_state.md R38; D6, D24; the canonical form of memory is log 13,
the batch counter log 5). -/
def Obligations.LoadMeetsTheInvariant : Prop :=
  ∀ (cfg : Config) (inputs : List (Option InputEvent)) (rom : List Byte) (s : State),
    load cfg inputs rom = .ok s → s.Inv

/-- Every step keeps the invariant: memory stays canonical, the stack keeps its size and `SP` its range, the batch
counter its bound, the scheduler is stopped exactly when the engine is halted, and the 16-bit wrap of `PC` is never
reached (10_state.md R23, R25, R35; D2, D3, D4, D17, D20; log 4, log 13). -/
def Obligations.EveryStepKeepsTheInvariant : Prop :=
  ∀ s t : State, s.Inv → step s = .next t → t.Inv
end

