-- ==== Sys2Proof/Laws/Decode.lean ====
section
/-! SUPPORT. The fields of an encoded word, shape by shape, and the bytes of a word. -/

namespace Sys2Proof

/-! ### The shape of two registers and a nibble -/

@[simp] theorem fieldT_encodeXYN (t : Nibble) (x y : Reg) (n : Nibble) : fieldT (encodeXYN t x y n) = t := by
  apply BitVec.eq_of_getLsbD_eq
  intro k hk
  simp only [fieldT, encodeXYN, BitVec.getLsbD_extractLsb', BitVec.getLsbD_append]
  interval_cases k <;> simp

@[simp] theorem fieldX_encodeXYN (t : Nibble) (x y : Reg) (n : Nibble) : fieldX (encodeXYN t x y n) = x := by
  have h : (encodeXYN t x y n).extractLsb' 8 4 = regBits x := by
    apply BitVec.eq_of_getLsbD_eq
    intro k hk
    simp only [encodeXYN, BitVec.getLsbD_extractLsb', BitVec.getLsbD_append]
    interval_cases k <;> simp
  simp only [fieldX, h]; rfl

@[simp] theorem fieldY_encodeXYN (t : Nibble) (x y : Reg) (n : Nibble) : fieldY (encodeXYN t x y n) = y := by
  have h : (encodeXYN t x y n).extractLsb' 4 4 = regBits y := by
    apply BitVec.eq_of_getLsbD_eq
    intro k hk
    simp only [encodeXYN, BitVec.getLsbD_extractLsb', BitVec.getLsbD_append]
    interval_cases k <;> simp
  simp only [fieldY, h]; rfl

@[simp] theorem fieldN_encodeXYN (t : Nibble) (x y : Reg) (n : Nibble) : fieldN (encodeXYN t x y n) = n := by
  apply BitVec.eq_of_getLsbD_eq
  intro k hk
  simp only [fieldN, encodeXYN, BitVec.getLsbD_extractLsb', BitVec.getLsbD_append]
  interval_cases k <;> simp

/-! ### The shape of a register and a byte -/

@[simp] theorem fieldT_encodeXNN (t : Nibble) (x : Reg) (nn : Byte) : fieldT (encodeXNN t x nn) = t := by
  apply BitVec.eq_of_getLsbD_eq
  intro k hk
  simp only [fieldT, encodeXNN, BitVec.getLsbD_extractLsb', BitVec.getLsbD_append]
  interval_cases k <;> simp

@[simp] theorem fieldX_encodeXNN (t : Nibble) (x : Reg) (nn : Byte) : fieldX (encodeXNN t x nn) = x := by
  have h : (encodeXNN t x nn).extractLsb' 8 4 = regBits x := by
    apply BitVec.eq_of_getLsbD_eq
    intro k hk
    simp only [encodeXNN, BitVec.getLsbD_extractLsb', BitVec.getLsbD_append]
    interval_cases k <;> simp
  simp only [fieldX, h]; rfl

@[simp] theorem fieldNN_encodeXNN (t : Nibble) (x : Reg) (nn : Byte) : fieldNN (encodeXNN t x nn) = nn := by
  apply BitVec.eq_of_getLsbD_eq
  intro k hk
  simp only [fieldNN, encodeXNN, BitVec.getLsbD_extractLsb', BitVec.getLsbD_append]
  interval_cases k <;> simp

/-! ### The shape of an address -/

@[simp] theorem fieldT_encodeNNN (t : Nibble) (nnn : Addr) : fieldT (encodeNNN t nnn) = t := by
  apply BitVec.eq_of_getLsbD_eq
  intro k hk
  simp only [fieldT, encodeNNN, BitVec.getLsbD_extractLsb', BitVec.getLsbD_append]
  interval_cases k <;> simp

@[simp] theorem fieldNNN_encodeNNN (t : Nibble) (nnn : Addr) : fieldNNN (encodeNNN t nnn) = nnn := by
  apply BitVec.eq_of_getLsbD_eq
  intro k hk
  simp only [fieldNNN, encodeNNN, BitVec.getLsbD_extractLsb', BitVec.getLsbD_append]
  interval_cases k <;> simp

/-! ### A word is its fields -/

theorem encodeXYN_fields (op : Word) : encodeXYN (fieldT op) (fieldX op) (fieldY op) (fieldN op) = op := by
  apply BitVec.eq_of_getLsbD_eq
  intro k hk
  simp only [encodeXYN, regBits, fieldT, fieldX, fieldY, fieldN, BitVec.ofFin_toFin, BitVec.getLsbD_append,
    BitVec.getLsbD_extractLsb']
  interval_cases k <;> simp

theorem encodeXNN_fields (op : Word) : encodeXNN (fieldT op) (fieldX op) (fieldNN op) = op := by
  apply BitVec.eq_of_getLsbD_eq
  intro k hk
  simp only [encodeXNN, regBits, fieldT, fieldX, fieldNN, BitVec.ofFin_toFin, BitVec.getLsbD_append,
    BitVec.getLsbD_extractLsb']
  interval_cases k <;> simp

theorem encodeNNN_fields (op : Word) : encodeNNN (fieldT op) (fieldNNN op) = op := by
  apply BitVec.eq_of_getLsbD_eq
  intro k hk
  simp only [encodeNNN, fieldT, fieldNNN, BitVec.getLsbD_append, BitVec.getLsbD_extractLsb']
  interval_cases k <;> simp

/-- The two bytes of a word, put together again, are the word. -/
theorem wordOfBytes_bytes (op : Word) : wordOfBytes (op.extractLsb' 8 8) (op.extractLsb' 0 8) = op := by
  apply BitVec.eq_of_getLsbD_eq
  intro k hk
  simp only [wordOfBytes, BitVec.getLsbD_append, BitVec.getLsbD_extractLsb']
  interval_cases k <;> simp

/-- Decoding the bytes of a word decodes the word. -/
theorem decode_bytesOfWord (strict : Bool) (op : Word) (rest : List Byte) :
    decode strict (bytesOfWord op ++ rest) =
      match decodeWord strict op with
      | some i => .ok (i, rest)
      | none => .error (.unsupported op) := by
  cases h : decodeWord strict op <;> simp [bytesOfWord, decode, wordOfBytes_bytes, h]

/-! ### Fields as numbers -/

theorem fieldT_toNat (op : Word) : (fieldT op).toNat = op.toNat / 4096 := by
  simp [fieldT, Nat.shiftRight_eq_div_pow]; omega

theorem fieldX_val (op : Word) : (fieldX op).val = op.toNat / 256 % 16 := by
  simp [fieldX, Nat.shiftRight_eq_div_pow]

theorem fieldY_val (op : Word) : (fieldY op).val = op.toNat / 16 % 16 := by
  simp [fieldY, Nat.shiftRight_eq_div_pow]

theorem fieldN_toNat (op : Word) : (fieldN op).toNat = op.toNat % 16 := by simp [fieldN]

theorem fieldNN_toNat (op : Word) : (fieldNN op).toNat = op.toNat % 256 := by simp [fieldNN]

theorem fieldNNN_toNat (op : Word) : (fieldNNN op).toNat = op.toNat % 4096 := by simp [fieldNNN]

end Sys2Proof
end

