-- ==== Sys2Proof/Laws/State.lean ====
section
/-! SUPPORT. One lemma per field per update of the state, so that no later proof unfolds a record update; then the
registers, the bytes and the pixels that an update leaves. -/

namespace Sys2Proof.Machine

/-! ### `State.setV` -/

@[simp] theorem State.setV_cfg (s : State) (r : Reg) (b : Byte) : (s.setV r b).cfg = s.cfg := rfl
@[simp] theorem State.setV_v (s : State) (r : Reg) (b : Byte) : (s.setV r b).v = s.v.set r.val b := rfl
@[simp] theorem State.setV_pc (s : State) (r : Reg) (b : Byte) : (s.setV r b).pc = s.pc := rfl
@[simp] theorem State.setV_i (s : State) (r : Reg) (b : Byte) : (s.setV r b).i = s.i := rfl
@[simp] theorem State.setV_stack (s : State) (r : Reg) (b : Byte) : (s.setV r b).stack = s.stack := rfl
@[simp] theorem State.setV_sp (s : State) (r : Reg) (b : Byte) : (s.setV r b).sp = s.sp := rfl
@[simp] theorem State.setV_dt (s : State) (r : Reg) (b : Byte) : (s.setV r b).dt = s.dt := rfl
@[simp] theorem State.setV_st (s : State) (r : Reg) (b : Byte) : (s.setV r b).st = s.st := rfl
@[simp] theorem State.setV_eng (s : State) (r : Reg) (b : Byte) : (s.setV r b).eng = s.eng := rfl
@[simp] theorem State.setV_fb (s : State) (r : Reg) (b : Byte) : (s.setV r b).fb = s.fb := rfl
@[simp] theorem State.setV_soundOn (s : State) (r : Reg) (b : Byte) : (s.setV r b).soundOn = s.soundOn := rfl
@[simp] theorem State.setV_sched (s : State) (r : Reg) (b : Byte) : (s.setV r b).sched = s.sched := rfl
@[simp] theorem State.setV_batch (s : State) (r : Reg) (b : Byte) : (s.setV r b).batch = s.batch := rfl
@[simp] theorem State.setV_keysDown (s : State) (r : Reg) (b : Byte) : (s.setV r b).keysDown = s.keysDown := rfl
@[simp] theorem State.setV_lastKey (s : State) (r : Reg) (b : Byte) : (s.setV r b).lastKey = s.lastKey := rfl
@[simp] theorem State.setV_mem (s : State) (r : Reg) (b : Byte) : (s.setV r b).mem = s.mem := rfl
@[simp] theorem State.setV_inputs (s : State) (r : Reg) (b : Byte) : (s.setV r b).inputs = s.inputs := rfl
@[simp] theorem State.setV_drawCount (s : State) (r : Reg) (b : Byte) : (s.setV r b).drawCount = s.drawCount := rfl

/-! ### `State.setPc` -/

@[simp] theorem State.setPc_cfg (s : State) (w : Word) : (s.setPc w).cfg = s.cfg := rfl
@[simp] theorem State.setPc_v (s : State) (w : Word) : (s.setPc w).v = s.v := rfl
@[simp] theorem State.setPc_pc (s : State) (w : Word) : (s.setPc w).pc = w := rfl
@[simp] theorem State.setPc_i (s : State) (w : Word) : (s.setPc w).i = s.i := rfl
@[simp] theorem State.setPc_stack (s : State) (w : Word) : (s.setPc w).stack = s.stack := rfl
@[simp] theorem State.setPc_sp (s : State) (w : Word) : (s.setPc w).sp = s.sp := rfl
@[simp] theorem State.setPc_dt (s : State) (w : Word) : (s.setPc w).dt = s.dt := rfl
@[simp] theorem State.setPc_st (s : State) (w : Word) : (s.setPc w).st = s.st := rfl
@[simp] theorem State.setPc_eng (s : State) (w : Word) : (s.setPc w).eng = s.eng := rfl
@[simp] theorem State.setPc_fb (s : State) (w : Word) : (s.setPc w).fb = s.fb := rfl
@[simp] theorem State.setPc_soundOn (s : State) (w : Word) : (s.setPc w).soundOn = s.soundOn := rfl
@[simp] theorem State.setPc_sched (s : State) (w : Word) : (s.setPc w).sched = s.sched := rfl
@[simp] theorem State.setPc_batch (s : State) (w : Word) : (s.setPc w).batch = s.batch := rfl
@[simp] theorem State.setPc_keysDown (s : State) (w : Word) : (s.setPc w).keysDown = s.keysDown := rfl
@[simp] theorem State.setPc_lastKey (s : State) (w : Word) : (s.setPc w).lastKey = s.lastKey := rfl
@[simp] theorem State.setPc_mem (s : State) (w : Word) : (s.setPc w).mem = s.mem := rfl
@[simp] theorem State.setPc_inputs (s : State) (w : Word) : (s.setPc w).inputs = s.inputs := rfl
@[simp] theorem State.setPc_drawCount (s : State) (w : Word) : (s.setPc w).drawCount = s.drawCount := rfl

/-! ### `State.setI` -/

@[simp] theorem State.setI_cfg (s : State) (w : Word) : (s.setI w).cfg = s.cfg := rfl
@[simp] theorem State.setI_v (s : State) (w : Word) : (s.setI w).v = s.v := rfl
@[simp] theorem State.setI_pc (s : State) (w : Word) : (s.setI w).pc = s.pc := rfl
@[simp] theorem State.setI_i (s : State) (w : Word) : (s.setI w).i = w := rfl
@[simp] theorem State.setI_stack (s : State) (w : Word) : (s.setI w).stack = s.stack := rfl
@[simp] theorem State.setI_sp (s : State) (w : Word) : (s.setI w).sp = s.sp := rfl
@[simp] theorem State.setI_dt (s : State) (w : Word) : (s.setI w).dt = s.dt := rfl
@[simp] theorem State.setI_st (s : State) (w : Word) : (s.setI w).st = s.st := rfl
@[simp] theorem State.setI_eng (s : State) (w : Word) : (s.setI w).eng = s.eng := rfl
@[simp] theorem State.setI_fb (s : State) (w : Word) : (s.setI w).fb = s.fb := rfl
@[simp] theorem State.setI_soundOn (s : State) (w : Word) : (s.setI w).soundOn = s.soundOn := rfl
@[simp] theorem State.setI_sched (s : State) (w : Word) : (s.setI w).sched = s.sched := rfl
@[simp] theorem State.setI_batch (s : State) (w : Word) : (s.setI w).batch = s.batch := rfl
@[simp] theorem State.setI_keysDown (s : State) (w : Word) : (s.setI w).keysDown = s.keysDown := rfl
@[simp] theorem State.setI_lastKey (s : State) (w : Word) : (s.setI w).lastKey = s.lastKey := rfl
@[simp] theorem State.setI_mem (s : State) (w : Word) : (s.setI w).mem = s.mem := rfl
@[simp] theorem State.setI_inputs (s : State) (w : Word) : (s.setI w).inputs = s.inputs := rfl
@[simp] theorem State.setI_drawCount (s : State) (w : Word) : (s.setI w).drawCount = s.drawCount := rfl

/-! ### `State.setDt` -/

@[simp] theorem State.setDt_cfg (s : State) (b : Byte) : (s.setDt b).cfg = s.cfg := rfl
@[simp] theorem State.setDt_v (s : State) (b : Byte) : (s.setDt b).v = s.v := rfl
@[simp] theorem State.setDt_pc (s : State) (b : Byte) : (s.setDt b).pc = s.pc := rfl
@[simp] theorem State.setDt_i (s : State) (b : Byte) : (s.setDt b).i = s.i := rfl
@[simp] theorem State.setDt_stack (s : State) (b : Byte) : (s.setDt b).stack = s.stack := rfl
@[simp] theorem State.setDt_sp (s : State) (b : Byte) : (s.setDt b).sp = s.sp := rfl
@[simp] theorem State.setDt_dt (s : State) (b : Byte) : (s.setDt b).dt = b := rfl
@[simp] theorem State.setDt_st (s : State) (b : Byte) : (s.setDt b).st = s.st := rfl
@[simp] theorem State.setDt_eng (s : State) (b : Byte) : (s.setDt b).eng = s.eng := rfl
@[simp] theorem State.setDt_fb (s : State) (b : Byte) : (s.setDt b).fb = s.fb := rfl
@[simp] theorem State.setDt_soundOn (s : State) (b : Byte) : (s.setDt b).soundOn = s.soundOn := rfl
@[simp] theorem State.setDt_sched (s : State) (b : Byte) : (s.setDt b).sched = s.sched := rfl
@[simp] theorem State.setDt_batch (s : State) (b : Byte) : (s.setDt b).batch = s.batch := rfl
@[simp] theorem State.setDt_keysDown (s : State) (b : Byte) : (s.setDt b).keysDown = s.keysDown := rfl
@[simp] theorem State.setDt_lastKey (s : State) (b : Byte) : (s.setDt b).lastKey = s.lastKey := rfl
@[simp] theorem State.setDt_mem (s : State) (b : Byte) : (s.setDt b).mem = s.mem := rfl
@[simp] theorem State.setDt_inputs (s : State) (b : Byte) : (s.setDt b).inputs = s.inputs := rfl
@[simp] theorem State.setDt_drawCount (s : State) (b : Byte) : (s.setDt b).drawCount = s.drawCount := rfl

/-! ### `State.setSt` -/

@[simp] theorem State.setSt_cfg (s : State) (b : Byte) : (s.setSt b).cfg = s.cfg := rfl
@[simp] theorem State.setSt_v (s : State) (b : Byte) : (s.setSt b).v = s.v := rfl
@[simp] theorem State.setSt_pc (s : State) (b : Byte) : (s.setSt b).pc = s.pc := rfl
@[simp] theorem State.setSt_i (s : State) (b : Byte) : (s.setSt b).i = s.i := rfl
@[simp] theorem State.setSt_stack (s : State) (b : Byte) : (s.setSt b).stack = s.stack := rfl
@[simp] theorem State.setSt_sp (s : State) (b : Byte) : (s.setSt b).sp = s.sp := rfl
@[simp] theorem State.setSt_dt (s : State) (b : Byte) : (s.setSt b).dt = s.dt := rfl
@[simp] theorem State.setSt_st (s : State) (b : Byte) : (s.setSt b).st = b := rfl
@[simp] theorem State.setSt_eng (s : State) (b : Byte) : (s.setSt b).eng = s.eng := rfl
@[simp] theorem State.setSt_fb (s : State) (b : Byte) : (s.setSt b).fb = s.fb := rfl
@[simp] theorem State.setSt_soundOn (s : State) (b : Byte) : (s.setSt b).soundOn = s.soundOn := rfl
@[simp] theorem State.setSt_sched (s : State) (b : Byte) : (s.setSt b).sched = s.sched := rfl
@[simp] theorem State.setSt_batch (s : State) (b : Byte) : (s.setSt b).batch = s.batch := rfl
@[simp] theorem State.setSt_keysDown (s : State) (b : Byte) : (s.setSt b).keysDown = s.keysDown := rfl
@[simp] theorem State.setSt_lastKey (s : State) (b : Byte) : (s.setSt b).lastKey = s.lastKey := rfl
@[simp] theorem State.setSt_mem (s : State) (b : Byte) : (s.setSt b).mem = s.mem := rfl
@[simp] theorem State.setSt_inputs (s : State) (b : Byte) : (s.setSt b).inputs = s.inputs := rfl
@[simp] theorem State.setSt_drawCount (s : State) (b : Byte) : (s.setSt b).drawCount = s.drawCount := rfl

/-! ### `State.setEng` -/

@[simp] theorem State.setEng_cfg (s : State) (e : Engine) : (s.setEng e).cfg = s.cfg := rfl
@[simp] theorem State.setEng_v (s : State) (e : Engine) : (s.setEng e).v = s.v := rfl
@[simp] theorem State.setEng_pc (s : State) (e : Engine) : (s.setEng e).pc = s.pc := rfl
@[simp] theorem State.setEng_i (s : State) (e : Engine) : (s.setEng e).i = s.i := rfl
@[simp] theorem State.setEng_stack (s : State) (e : Engine) : (s.setEng e).stack = s.stack := rfl
@[simp] theorem State.setEng_sp (s : State) (e : Engine) : (s.setEng e).sp = s.sp := rfl
@[simp] theorem State.setEng_dt (s : State) (e : Engine) : (s.setEng e).dt = s.dt := rfl
@[simp] theorem State.setEng_st (s : State) (e : Engine) : (s.setEng e).st = s.st := rfl
@[simp] theorem State.setEng_eng (s : State) (e : Engine) : (s.setEng e).eng = e := rfl
@[simp] theorem State.setEng_fb (s : State) (e : Engine) : (s.setEng e).fb = s.fb := rfl
@[simp] theorem State.setEng_soundOn (s : State) (e : Engine) : (s.setEng e).soundOn = s.soundOn := rfl
@[simp] theorem State.setEng_sched (s : State) (e : Engine) : (s.setEng e).sched = s.sched := rfl
@[simp] theorem State.setEng_batch (s : State) (e : Engine) : (s.setEng e).batch = s.batch := rfl
@[simp] theorem State.setEng_keysDown (s : State) (e : Engine) : (s.setEng e).keysDown = s.keysDown := rfl
@[simp] theorem State.setEng_lastKey (s : State) (e : Engine) : (s.setEng e).lastKey = s.lastKey := rfl
@[simp] theorem State.setEng_mem (s : State) (e : Engine) : (s.setEng e).mem = s.mem := rfl
@[simp] theorem State.setEng_inputs (s : State) (e : Engine) : (s.setEng e).inputs = s.inputs := rfl
@[simp] theorem State.setEng_drawCount (s : State) (e : Engine) : (s.setEng e).drawCount = s.drawCount := rfl

/-! ### `State.setSound` -/

@[simp] theorem State.setSound_cfg (s : State) (on : Bool) : (s.setSound on).cfg = s.cfg := rfl
@[simp] theorem State.setSound_v (s : State) (on : Bool) : (s.setSound on).v = s.v := rfl
@[simp] theorem State.setSound_pc (s : State) (on : Bool) : (s.setSound on).pc = s.pc := rfl
@[simp] theorem State.setSound_i (s : State) (on : Bool) : (s.setSound on).i = s.i := rfl
@[simp] theorem State.setSound_stack (s : State) (on : Bool) : (s.setSound on).stack = s.stack := rfl
@[simp] theorem State.setSound_sp (s : State) (on : Bool) : (s.setSound on).sp = s.sp := rfl
@[simp] theorem State.setSound_dt (s : State) (on : Bool) : (s.setSound on).dt = s.dt := rfl
@[simp] theorem State.setSound_st (s : State) (on : Bool) : (s.setSound on).st = s.st := rfl
@[simp] theorem State.setSound_eng (s : State) (on : Bool) : (s.setSound on).eng = s.eng := rfl
@[simp] theorem State.setSound_fb (s : State) (on : Bool) : (s.setSound on).fb = s.fb := rfl
@[simp] theorem State.setSound_soundOn (s : State) (on : Bool) : (s.setSound on).soundOn = on := rfl
@[simp] theorem State.setSound_sched (s : State) (on : Bool) : (s.setSound on).sched = s.sched := rfl
@[simp] theorem State.setSound_batch (s : State) (on : Bool) : (s.setSound on).batch = s.batch := rfl
@[simp] theorem State.setSound_keysDown (s : State) (on : Bool) : (s.setSound on).keysDown = s.keysDown := rfl
@[simp] theorem State.setSound_lastKey (s : State) (on : Bool) : (s.setSound on).lastKey = s.lastKey := rfl
@[simp] theorem State.setSound_mem (s : State) (on : Bool) : (s.setSound on).mem = s.mem := rfl
@[simp] theorem State.setSound_inputs (s : State) (on : Bool) : (s.setSound on).inputs = s.inputs := rfl
@[simp] theorem State.setSound_drawCount (s : State) (on : Bool) : (s.setSound on).drawCount = s.drawCount := rfl

/-! ### `State.countStep` -/

@[simp] theorem State.countStep_cfg (s : State) : (s.countStep).cfg = s.cfg := rfl
@[simp] theorem State.countStep_v (s : State) : (s.countStep).v = s.v := rfl
@[simp] theorem State.countStep_pc (s : State) : (s.countStep).pc = s.pc := rfl
@[simp] theorem State.countStep_i (s : State) : (s.countStep).i = s.i := rfl
@[simp] theorem State.countStep_stack (s : State) : (s.countStep).stack = s.stack := rfl
@[simp] theorem State.countStep_sp (s : State) : (s.countStep).sp = s.sp := rfl
@[simp] theorem State.countStep_dt (s : State) : (s.countStep).dt = s.dt := rfl
@[simp] theorem State.countStep_st (s : State) : (s.countStep).st = s.st := rfl
@[simp] theorem State.countStep_eng (s : State) : (s.countStep).eng = s.eng := rfl
@[simp] theorem State.countStep_fb (s : State) : (s.countStep).fb = s.fb := rfl
@[simp] theorem State.countStep_soundOn (s : State) : (s.countStep).soundOn = s.soundOn := rfl
@[simp] theorem State.countStep_sched (s : State) : (s.countStep).sched = s.sched := rfl
@[simp] theorem State.countStep_batch (s : State) : (s.countStep).batch = s.batch + 1 := rfl
@[simp] theorem State.countStep_keysDown (s : State) : (s.countStep).keysDown = s.keysDown := rfl
@[simp] theorem State.countStep_lastKey (s : State) : (s.countStep).lastKey = s.lastKey := rfl
@[simp] theorem State.countStep_mem (s : State) : (s.countStep).mem = s.mem := rfl
@[simp] theorem State.countStep_inputs (s : State) : (s.countStep).inputs = s.inputs := rfl
@[simp] theorem State.countStep_drawCount (s : State) : (s.countStep).drawCount = s.drawCount := rfl

/-! ### `State.displayClear` -/

@[simp] theorem State.displayClear_cfg (s : State) : (s.displayClear).cfg = s.cfg := rfl
@[simp] theorem State.displayClear_v (s : State) : (s.displayClear).v = s.v := rfl
@[simp] theorem State.displayClear_pc (s : State) : (s.displayClear).pc = s.pc := rfl
@[simp] theorem State.displayClear_i (s : State) : (s.displayClear).i = s.i := rfl
@[simp] theorem State.displayClear_stack (s : State) : (s.displayClear).stack = s.stack := rfl
@[simp] theorem State.displayClear_sp (s : State) : (s.displayClear).sp = s.sp := rfl
@[simp] theorem State.displayClear_dt (s : State) : (s.displayClear).dt = s.dt := rfl
@[simp] theorem State.displayClear_st (s : State) : (s.displayClear).st = s.st := rfl
@[simp] theorem State.displayClear_eng (s : State) : (s.displayClear).eng = s.eng := rfl
@[simp] theorem State.displayClear_fb (s : State) : (s.displayClear).fb = Vector.replicate 32 0 := rfl
@[simp] theorem State.displayClear_soundOn (s : State) : (s.displayClear).soundOn = s.soundOn := rfl
@[simp] theorem State.displayClear_sched (s : State) : (s.displayClear).sched = s.sched := rfl
@[simp] theorem State.displayClear_batch (s : State) : (s.displayClear).batch = s.batch := rfl
@[simp] theorem State.displayClear_keysDown (s : State) : (s.displayClear).keysDown = s.keysDown := rfl
@[simp] theorem State.displayClear_lastKey (s : State) : (s.displayClear).lastKey = s.lastKey := rfl
@[simp] theorem State.displayClear_mem (s : State) : (s.displayClear).mem = s.mem := rfl
@[simp] theorem State.displayClear_inputs (s : State) : (s.displayClear).inputs = s.inputs := rfl
@[simp] theorem State.displayClear_drawCount (s : State) : (s.displayClear).drawCount = s.drawCount := rfl

/-! ### Registers -/

@[simp] theorem State.getV_setV_same (s : State) (r : Reg) (b : Byte) : (s.setV r b).getV r = b := by
  simp [State.getV]

theorem State.getV_setV (s : State) (r q : Reg) (b : Byte) :
    (s.setV r b).getV q = if r = q then b else s.getV q := by
  simp [State.getV, Vector.getElem_set, Fin.ext_iff]

@[simp] theorem State.getV_setV_ne (s : State) {r q : Reg} (b : Byte) (h : r ≠ q) :
    (s.setV r b).getV q = s.getV q := by
  rw [State.getV_setV, if_neg h]

@[simp] theorem State.getV_setPc (s : State) (w : Word) (r : Reg) : (s.setPc w).getV r = s.getV r := rfl
@[simp] theorem State.getV_setI (s : State) (w : Word) (r : Reg) : (s.setI w).getV r = s.getV r := rfl
@[simp] theorem State.getV_setDt (s : State) (b : Byte) (r : Reg) : (s.setDt b).getV r = s.getV r := rfl
@[simp] theorem State.getV_setSt (s : State) (b : Byte) (r : Reg) : (s.setSt b).getV r = s.getV r := rfl
@[simp] theorem State.getV_setEng (s : State) (e : Engine) (r : Reg) : (s.setEng e).getV r = s.getV r := rfl
@[simp] theorem State.getV_setSound (s : State) (on : Bool) (r : Reg) : (s.setSound on).getV r = s.getV r := rfl
@[simp] theorem State.getV_countStep (s : State) (r : Reg) : (s.countStep).getV r = s.getV r := rfl
@[simp] theorem State.getV_displayClear (s : State) (r : Reg) : (s.displayClear).getV r = s.getV r := rfl

/-! ### Bytes of memory -/

@[simp] theorem State.byteAt_setV (s : State) (r : Reg) (b : Byte) (a : Nat) : (s.setV r b).byteAt a = s.byteAt a := rfl
@[simp] theorem State.byteAt_setPc (s : State) (w : Word) (a : Nat) : (s.setPc w).byteAt a = s.byteAt a := rfl
@[simp] theorem State.byteAt_setI (s : State) (w : Word) (a : Nat) : (s.setI w).byteAt a = s.byteAt a := rfl
@[simp] theorem State.byteAt_setDt (s : State) (b : Byte) (a : Nat) : (s.setDt b).byteAt a = s.byteAt a := rfl
@[simp] theorem State.byteAt_setSt (s : State) (b : Byte) (a : Nat) : (s.setSt b).byteAt a = s.byteAt a := rfl
@[simp] theorem State.byteAt_setEng (s : State) (e : Engine) (a : Nat) : (s.setEng e).byteAt a = s.byteAt a := rfl
@[simp] theorem State.byteAt_setSound (s : State) (on : Bool) (a : Nat) : (s.setSound on).byteAt a = s.byteAt a := rfl
@[simp] theorem State.byteAt_countStep (s : State) (a : Nat) : (s.countStep).byteAt a = s.byteAt a := rfl
@[simp] theorem State.byteAt_displayClear (s : State) (a : Nat) : (s.displayClear).byteAt a = s.byteAt a := rfl

/-! ### Pixels -/

@[simp] theorem State.pixel_setV (s : State) (r : Reg) (b : Byte) (px : Fin 64) (py : Fin 32) : (s.setV r b).pixel px py = s.pixel px py := rfl
@[simp] theorem State.pixel_setPc (s : State) (w : Word) (px : Fin 64) (py : Fin 32) : (s.setPc w).pixel px py = s.pixel px py := rfl
@[simp] theorem State.pixel_setI (s : State) (w : Word) (px : Fin 64) (py : Fin 32) : (s.setI w).pixel px py = s.pixel px py := rfl
@[simp] theorem State.pixel_setDt (s : State) (b : Byte) (px : Fin 64) (py : Fin 32) : (s.setDt b).pixel px py = s.pixel px py := rfl
@[simp] theorem State.pixel_setSt (s : State) (b : Byte) (px : Fin 64) (py : Fin 32) : (s.setSt b).pixel px py = s.pixel px py := rfl
@[simp] theorem State.pixel_setEng (s : State) (e : Engine) (px : Fin 64) (py : Fin 32) : (s.setEng e).pixel px py = s.pixel px py := rfl
@[simp] theorem State.pixel_setSound (s : State) (on : Bool) (px : Fin 64) (py : Fin 32) : (s.setSound on).pixel px py = s.pixel px py := rfl
@[simp] theorem State.pixel_countStep (s : State) (px : Fin 64) (py : Fin 32) : (s.countStep).pixel px py = s.pixel px py := rfl

@[simp] theorem State.pixel_displayClear (s : State) (px : Fin 64) (py : Fin 32) :
    s.displayClear.pixel px py = false := by
  simp [State.pixel]

end Sys2Proof.Machine
end

