-- ==== Sys2Proof/Laws/Memory.lean ====
section
/-! SUPPORT. The laws of memory: a read after a write, and the canonical form, which every write keeps. -/

namespace Sys2Proof.Machine

/-! ### Lookup -/

theorem Memory.lookup_insert (m : List Host.Cell) (a c : Nat) (w : Byte) :
    Memory.lookup (Memory.insert a w m) c = if c = a then some w else Memory.lookup m c := by
  induction m with
  | nil => simp [Memory.insert, Memory.lookup]
  | cons cell m ih =>
    obtain ⟨b, u⟩ := cell
    simp only [Memory.insert]
    split_ifs with h1 h2 <;> simp only [Memory.lookup, ih] <;> split_ifs <;> simp_all

theorem Memory.lookup_erase (m : List Host.Cell) (a c : Nat) :
    Memory.lookup (Memory.erase a m) c = if c = a then none else Memory.lookup m c := by
  unfold Memory.erase
  induction m with
  | nil => simp [Memory.lookup]
  | cons cell m ih =>
    obtain ⟨b, u⟩ := cell
    by_cases hb : b = a
    · subst hb
      rw [List.filter_cons_of_neg (by simp), ih]
      by_cases hc : c = b <;> simp [Memory.lookup, hc]
    · rw [List.filter_cons_of_pos (by simpa using hb)]
      simp only [Memory.lookup, ih]
      by_cases hcb : c = b
      · subst hcb; simp [hb]
      · simp [hcb]

/-- A byte written is read back and every other address reads as before. -/
theorem Memory.read_write (g : GlyphTable) (m : List Host.Cell) (a c : Nat) (w : Byte) :
    Memory.read g (Memory.write g m a w) c = if c = a then w else Memory.read g m c := by
  unfold Memory.write Memory.read
  split_ifs with h1 h2 h2
  · subst h2; simp [Memory.lookup_erase, h1]
  · simp [Memory.lookup_erase, h2]
  · simp [Memory.lookup_insert, h2]
  · simp [Memory.lookup_insert, h2]

/-! ### The canonical form -/

theorem Memory.mem_insert {m : List Host.Cell} {a : Nat} {w : Byte} {c : Host.Cell}
    (h : c ∈ Memory.insert a w m) : c = (a, w) ∨ c ∈ m := by
  induction m with
  | nil => exact .inl (List.mem_singleton.mp h)
  | cons cell m ih =>
    obtain ⟨b, u⟩ := cell
    simp only [Memory.insert] at h
    split_ifs at h <;> simp only [List.mem_cons] at h ⊢ <;> tauto

theorem Memory.mem_erase {m : List Host.Cell} {a : Nat} {c : Host.Cell} (h : c ∈ Memory.erase a m) : c ∈ m :=
  List.mem_of_mem_filter h

theorem Memory.insert_rises {m : List Host.Cell} (hm : m.Pairwise fun c d => c.1 < d.1) (a : Nat) (w : Byte) :
    (Memory.insert a w m).Pairwise fun c d => c.1 < d.1 := by
  induction m with
  | nil => simp [Memory.insert]
  | cons cell m ih =>
    obtain ⟨b, u⟩ := cell
    obtain ⟨hb, hm'⟩ := List.pairwise_cons.mp hm
    simp only [Memory.insert]
    split_ifs with h1 h2
    · refine List.pairwise_cons.mpr ⟨fun c hc => ?_, hm⟩
      rcases List.mem_cons.mp hc with rfl | hc
      · exact h1
      · exact Nat.lt_trans h1 (hb c hc)
    · exact List.pairwise_cons.mpr ⟨fun c hc => h2 ▸ hb c hc, hm'⟩
    · refine List.pairwise_cons.mpr ⟨fun c hc => ?_, ih hm'⟩
      rcases Memory.mem_insert hc with rfl | hc
      · exact Nat.lt_of_le_of_ne (Nat.not_lt.mp h1) (Ne.symm h2)
      · exact hb c hc

theorem Memory.erase_rises {m : List Host.Cell} (hm : m.Pairwise fun c d => c.1 < d.1) (a : Nat) :
    (Memory.erase a m).Pairwise fun c d => c.1 < d.1 :=
  hm.filter _

/-- A write inside the space keeps the canonical form. -/
theorem Memory.write_keeps_wf {g : GlyphTable} {m : List Host.Cell} (hm : Memory.wf g m) {a : Nat}
    (ha : a ≤ addrMax) (w : Byte) : Memory.wf g (Memory.write g m a w) := by
  unfold Memory.write
  split_ifs with h
  · exact ⟨Memory.erase_rises hm.1 a, fun c hc => hm.2 c (Memory.mem_erase hc)⟩
  · refine ⟨Memory.insert_rises hm.1 a w, fun c hc => ?_⟩
    rcases Memory.mem_insert hc with rfl | hc
    · exact ⟨ha, h⟩
    · exact hm.2 c hc

/-- The memory of `State.reset` is in canonical form. -/
theorem State.reset_memory_wf : Memory.wf State.reset.cfg.glyphs State.reset.mem := by
  simp [State.reset, State.initial, Memory.wf]

end Sys2Proof.Machine
end

