-- ==== Sys2Proof/Laws/Ops.lean ====
section
/-! SUPPORT. What each shared operation over memory, registers, the stack and the halt can do, said once. -/

namespace Sys2Proof.Machine

/-! ### One byte -/

theorem State.memRead_of_le (s : State) {a : Nat} (h : a ≤ addrMax) : s.memRead a = some (s.byteAt a) := if_pos h

theorem State.memRead_of_gt (s : State) {a : Nat} (h : addrMax < a) : s.memRead a = none :=
  if_neg (Nat.not_le.mpr h)

theorem State.memWrite_of_gt (s : State) {a : Nat} (h : addrMax < a) (b : Byte) : s.memWrite a b = none :=
  if_neg (Nat.not_le.mpr h)

/-- What a write inside the space does: the byte reads back, every other reads as before, the canonical form is kept
and nothing but memory changes. -/
theorem State.memWrite_spec (s : State) {a : Nat} (h : a ≤ addrMax) (b : Byte) :
    ∃ t, s.memWrite a b = some t ∧ t = { s with mem := t.mem } ∧
      (∀ c, t.byteAt c = if c = a then b else s.byteAt c) ∧ (s.MemCanonical → t.MemCanonical) :=
  ⟨_, if_pos h, rfl, fun c => Memory.read_write _ _ a c b, fun hs => Memory.write_keeps_wf hs h b⟩

/-! ### Runs of bytes -/

/-- What a run of stores does: the bytes inside the space are stored, every other byte reads as before, the answer is
the first address out of range if there is one, and nothing but memory changes. -/
theorem State.storeBytes_spec (bs : List Byte) : ∀ (a : Nat) (s : State),
    (State.storeBytes a bs s).1 = { s with mem := (State.storeBytes a bs s).1.mem } ∧
    (∀ c, (State.storeBytes a bs s).1.byteAt c =
      if a ≤ c ∧ c < a + bs.length ∧ c ≤ addrMax then bs.getD (c - a) 0 else s.byteAt c) ∧
    (State.storeBytes a bs s).2 =
      (if bs = [] ∨ a + bs.length ≤ addrMax + 1 then none else some (max a (addrMax + 1))) ∧
    (s.MemCanonical → (State.storeBytes a bs s).1.MemCanonical) := by
  induction bs with
  | nil => intro a s; refine ⟨rfl, fun c => ?_, by simp [State.storeBytes], id⟩
           rw [if_neg (by simp only [List.length_nil]; omega)]; rfl
  | cons b bs ih =>
    intro a s
    by_cases h : a ≤ addrMax
    · obtain ⟨t, ht, hframe, hbytes, hwf⟩ := s.memWrite_spec h b
      obtain ⟨i1, i2, i3, i4⟩ := ih (a + 1) t
      simp only [State.storeBytes, ht]
      refine ⟨?_, fun c => ?_, ?_, fun hs => i4 (hwf hs)⟩
      · rw [i1]; generalize (State.storeBytes (a + 1) bs t).1.mem = m; rw [hframe]
      · rw [i2 c, hbytes c]
        by_cases hc : c = a
        · subst hc; simp [h]
        · rw [if_neg hc]
          by_cases hlt : a ≤ c
          · obtain ⟨k, rfl⟩ : ∃ k, c = a + 1 + k := ⟨c - (a + 1), by omega⟩
            have h1 : a + 1 + k - a = k + 1 := by omega
            simp only [List.length_cons, List.getD_cons_succ, h1, Nat.add_sub_cancel_left]
            congr 1; simp only [eq_iff_iff]; omega
          · rw [if_neg (by omega), if_neg (by omega)]
      · rw [i3]
        by_cases hb : bs = []
        · subst hb; simp [h]
        · simp only [hb, false_or, List.cons_ne_nil, List.length_cons]
          have : max (a + 1) (addrMax + 1) = max a (addrMax + 1) := by omega
          rw [this]; congr 1; simp only [eq_iff_iff]; omega
    · have hn := s.memWrite_of_gt (Nat.not_le.mp h) b
      simp only [State.storeBytes, hn]
      refine ⟨trivial, fun c => ?_, ?_, id⟩
      · rw [if_neg (by omega)]
      · rw [if_neg (by simp only [List.length_cons, reduceCtorEq, false_or]; omega)]
        congr 1; omega

theorem State.storeBytes_frame (a : Nat) (bs : List Byte) (s : State) :
    (State.storeBytes a bs s).1 = { s with mem := (State.storeBytes a bs s).1.mem } :=
  (State.storeBytes_spec bs a s).1

/-- The bytes inside the space are stored. -/
theorem State.storeBytes_stored (a : Nat) (bs : List Byte) (s : State) {k : Nat} (hk : k < bs.length)
    (h : a + k ≤ addrMax) : (State.storeBytes a bs s).1.byteAt (a + k) = bs[k] := by
  rw [(State.storeBytes_spec bs a s).2.1, if_pos ⟨by omega, by omega, h⟩, Nat.add_sub_cancel_left,
    List.getD_eq_getElem _ _ hk]

/-- Every byte before the run, after it or out of range reads as before. -/
theorem State.storeBytes_other (a : Nat) (bs : List Byte) (s : State) {c : Nat}
    (h : c < a ∨ a + bs.length ≤ c ∨ addrMax < c) : (State.storeBytes a bs s).1.byteAt c = s.byteAt c := by
  rw [(State.storeBytes_spec bs a s).2.1, if_neg (by omega)]

theorem State.storeBytes_completes (a : Nat) (bs : List Byte) (s : State) (h : a + bs.length ≤ addrMax + 1) :
    (State.storeBytes a bs s).2 = none := by
  rw [(State.storeBytes_spec bs a s).2.2.1, if_pos (.inr h)]

theorem State.storeBytes_stops (a : Nat) (bs : List Byte) (s : State) (hne : bs ≠ [])
    (h : addrMax + 1 < a + bs.length) : (State.storeBytes a bs s).2 = some (max a (addrMax + 1)) := by
  rw [(State.storeBytes_spec bs a s).2.2.1, if_neg]
  rintro (e | e)
  · exact hne e
  · omega

theorem State.storeBytes_keeps_wf (a : Nat) (bs : List Byte) (s : State) (h : s.MemCanonical) :
    (State.storeBytes a bs s).1.MemCanonical :=
  (State.storeBytes_spec bs a s).2.2.2 h

/-- What a run of loads does: the registers whose bytes lie inside the space are loaded, every other keeps its value,
the answer is the first address out of range if there is one, and nothing but registers changes. -/
theorem State.loadRegs_spec (rs : List Reg) : ∀ (a : Nat) (s : State), rs.Nodup →
    (State.loadRegs a rs s).1 = { s with v := (State.loadRegs a rs s).1.v } ∧
    (∀ r, r ∉ rs → (State.loadRegs a rs s).1.getV r = s.getV r) ∧
    (∀ (k : Nat) (hk : k < rs.length), (State.loadRegs a rs s).1.getV rs[k] =
      if a + k ≤ addrMax then s.byteAt (a + k) else s.getV rs[k]) ∧
    (State.loadRegs a rs s).2 =
      (if rs = [] ∨ a + rs.length ≤ addrMax + 1 then none else some (max a (addrMax + 1))) := by
  induction rs with
  | nil => intro a s _; exact ⟨rfl, fun _ _ => rfl, fun k hk => absurd hk (by simp), by simp [State.loadRegs]⟩
  | cons q rs ih =>
    intro a s hnd
    obtain ⟨hq, hnd⟩ := List.nodup_cons.mp hnd
    by_cases h : a ≤ addrMax
    · obtain ⟨i1, i2, i3, i4⟩ := ih (a + 1) (s.setV q (s.byteAt a)) hnd
      simp only [State.loadRegs, s.memRead_of_le h]
      refine ⟨?_, fun r hr => ?_, fun k hk => ?_, ?_⟩
      · rw [i1]; rfl
      · obtain ⟨h1, h2⟩ : r ≠ q ∧ r ∉ rs := by simpa [not_or] using hr
        rw [i2 r h2, State.getV_setV_ne _ _ (Ne.symm h1)]
      · cases k with
        | zero => rw [List.getElem_cons_zero, i2 q hq, State.getV_setV_same, Nat.add_zero, if_pos h]
        | succ k =>
          have hk' : k < rs.length := by simpa using hk
          have hne : q ≠ rs[k] := fun e => hq (e ▸ List.getElem_mem hk')
          rw [List.getElem_cons_succ, i3 k hk', State.byteAt_setV, State.getV_setV_ne _ _ hne,
            show a + 1 + k = a + (k + 1) by omega]
      · rw [i4]
        by_cases hb : rs = []
        · subst hb; simp [h]
        · simp only [hb, false_or, List.cons_ne_nil, List.length_cons]
          have : max (a + 1) (addrMax + 1) = max a (addrMax + 1) := by omega
          rw [this]; congr 1; simp only [eq_iff_iff]; omega
    · simp only [State.loadRegs, s.memRead_of_gt (Nat.not_le.mp h)]
      refine ⟨trivial, fun _ _ => trivial, fun k hk => ?_, ?_⟩
      · rw [if_neg (by omega)]
      · rw [if_neg (by simp only [List.length_cons, reduceCtorEq, false_or]; omega)]
        congr 1; omega

theorem State.loadRegs_frame (a : Nat) {rs : List Reg} (s : State) (hn : rs.Nodup) :
    (State.loadRegs a rs s).1 = { s with v := (State.loadRegs a rs s).1.v } :=
  (State.loadRegs_spec rs a s hn).1

theorem State.loadRegs_other (a : Nat) {rs : List Reg} (s : State) (hn : rs.Nodup) {r : Reg} (h : r ∉ rs) :
    (State.loadRegs a rs s).1.getV r = s.getV r :=
  (State.loadRegs_spec rs a s hn).2.1 r h

theorem State.loadRegs_completes (a : Nat) {rs : List Reg} (s : State) (hn : rs.Nodup)
    (h : a + rs.length ≤ addrMax + 1) : (State.loadRegs a rs s).2 = none := by
  rw [(State.loadRegs_spec rs a s hn).2.2.2, if_pos (.inr h)]

theorem State.loadRegs_stops (a : Nat) {rs : List Reg} (s : State) (hn : rs.Nodup) (hne : rs ≠ [])
    (h : addrMax + 1 < a + rs.length) : (State.loadRegs a rs s).2 = some (max a (addrMax + 1)) := by
  rw [(State.loadRegs_spec rs a s hn).2.2.2, if_neg]
  rintro (e | e)
  · exact hne e
  · omega

/-! ### Register lists -/

theorem regsUpTo_nodup (x : Reg) : (regsUpTo x).Nodup :=
  List.Nodup.sublist (List.take_sublist _ _) (by decide)

@[simp] theorem regsUpTo_length (x : Reg) : (regsUpTo x).length = x.val + 1 := by
  have : allRegs.length = 16 := rfl
  simp only [regsUpTo, List.length_take, this]; omega

theorem regsUpTo_getElem (x : Reg) (k : Nat) (hk : k < (regsUpTo x).length) : ((regsUpTo x)[k]).val = k := by
  have h : ∀ j : Fin 16, (allRegs[j.val]'(j.isLt)).val = j.val := by decide
  rw [regsUpTo_length] at hk
  simp only [regsUpTo, List.getElem_take]
  exact h ⟨k, by omega⟩

theorem mem_regsUpTo {x r : Reg} : r ∈ regsUpTo x ↔ r ≤ x := by
  constructor
  · intro h
    obtain ⟨k, hk, e⟩ := List.getElem_of_mem h
    have := regsUpTo_getElem x k hk
    rw [regsUpTo_length] at hk
    rw [e] at this
    exact Fin.le_def.mpr (by omega)
  · intro h
    have hk : r.val < (regsUpTo x).length := by rw [regsUpTo_length]; have := Fin.le_def.mp h; omega
    have e : (regsUpTo x)[r.val] = r := Fin.ext (regsUpTo_getElem x r.val hk)
    exact e ▸ List.getElem_mem hk

theorem regsUpTo_ne_nil (x : Reg) : regsUpTo x ≠ [] := by
  intro h
  have := congrArg List.length h
  simp at this

/-- A register up to `x` stands at its own index in the list. -/
theorem regsUpTo_at {x r : Reg} (h : r ≤ x) : ∃ hk : r.val < (regsUpTo x).length, (regsUpTo x)[r.val] = r := by
  have hk : r.val < (regsUpTo x).length := by rw [regsUpTo_length]; have := Fin.le_def.mp h; omega
  exact ⟨hk, Fin.ext (regsUpTo_getElem x r.val hk)⟩

/-- FX65's run of loads, register by register. -/
theorem State.loadRegs_upTo (a : Nat) (x : Reg) (s : State) (r : Reg) :
    (State.loadRegs a (regsUpTo x) s).1.getV r =
      if r ≤ x ∧ a + r.val ≤ addrMax then s.byteAt (a + r.val) else s.getV r := by
  by_cases hr : r ≤ x
  · obtain ⟨hk, e⟩ := regsUpTo_at hr
    have h := (State.loadRegs_spec (regsUpTo x) a s (regsUpTo_nodup x)).2.2.1 r.val hk
    rw [e] at h
    simpa only [hr, true_and] using h
  · rw [if_neg (by tauto)]
    exact State.loadRegs_other a s (regsUpTo_nodup x) (by rwa [mem_regsUpTo])

/-! ### The call stack -/

/-- What a push can do. -/
theorem State.push_cases (s : State) (w : Word) :
    (s.sp < s.cfg.stackDepth ∧ s.push w = some { s with stack := s.stack.set s.sp w, sp := s.sp + 1 }) ∨
    (¬ s.sp < s.cfg.stackDepth ∧ s.push w = none) := by
  unfold State.push
  by_cases h : s.sp < s.cfg.stackDepth
  · exact .inl ⟨h, if_pos h⟩
  · exact .inr ⟨h, if_neg h⟩

/-- What a pop can do. -/
theorem State.pop_cases (s : State) :
    (∃ k, s.sp = k + 1 ∧ s.pop = some (s.stack.getD k 0, { s with sp := k })) ∨ (s.sp = 0 ∧ s.pop = none) := by
  unfold State.pop
  cases h : s.sp with
  | zero => exact .inr ⟨rfl, rfl⟩
  | succ k => exact .inl ⟨k, rfl, rfl⟩

/-! ### Halts and skips -/

/-- Taking a halt writes `ENG` and nothing else (60_exceptions.md R116). -/
theorem State.haltInstr_eq (s : State) (i : Instr) (cause : HaltCause) (f : Option Nat) :
    s.haltInstr i cause f = s.setEng (haltOf s i cause f) := rfl

theorem State.skipIf_eq (s : State) (c : Bool) : s.skipIf c = s.setPc (if c then s.pc + 2 else s.pc) := by
  cases c <;> rfl

/-! ### Fetch -/

/-- What a fetch can do (30_encoding.md R59). -/
theorem State.fetch_cases (s : State) :
    ((s.cfg.oddPcHalts && s.pc.getLsbD 0) = true ∧ s.fetch = .halt (s.raiseHalt .misalignedFetch none s.pc none)) ∨
    ((s.cfg.oddPcHalts && s.pc.getLsbD 0) = false ∧ addrMax < s.pc.toNat + 1 ∧
      s.fetch = .halt (s.raiseHalt .fetchOutOfRange none s.pc none)) ∨
    ((s.cfg.oddPcHalts && s.pc.getLsbD 0) = false ∧ s.pc.toNat + 1 ≤ addrMax ∧
      s.fetch = .word (wordOfBytes (s.byteAt s.pc.toNat) (s.byteAt (s.pc.toNat + 1))) s.pc (s.setPc (s.pc + 2))) := by
  unfold State.fetch
  cases h : s.cfg.oddPcHalts && s.pc.getLsbD 0 with
  | true => exact .inl ⟨rfl, if_pos rfl⟩
  | false =>
    by_cases hr : s.pc.toNat + 1 > addrMax
    · exact .inr (.inl ⟨rfl, hr, by rw [if_neg (by simp), if_pos hr]⟩)
    · exact .inr (.inr ⟨rfl, Nat.not_lt.mp hr, by rw [if_neg (by simp), if_neg hr]⟩)

end Sys2Proof.Machine
end

