-- ==== Sys2Proof/Laws/Display.lean ====
section
/-! SUPPORT. What setting one pixel, drawing the columns of a row and drawing the rows of a sprite can do. -/

namespace Sys2Proof.Machine

/-- `set_pixel` toggles its pixel and no other, answers whether it was set, and changes nothing but the frame buffer
(60_exceptions.md R129). -/
theorem State.setPixel_spec (s : State) (x : Fin 64) (y : Fin 32) :
    (s.setPixel x y).1 = { s with fb := (s.setPixel x y).1.fb } ∧ (s.setPixel x y).2 = s.pixel x y ∧
    ∀ px py, (s.setPixel x y).1.pixel px py = xor (s.pixel px py) (decide (px = x) && decide (py = y)) := by
  refine ⟨rfl, rfl, fun px py => ?_⟩
  simp only [State.setPixel, State.pixel, Vector.getElem_set]
  by_cases hy : py = y
  · subst hy
    have h : (px.val = x.val) ↔ (px = x) := Fin.ext_iff.symm
    simp [h]
  · have : ¬ y.val = py.val := fun e => hy (Fin.ext e.symm)
    simp [this, hy]

/-- Whether the columns `cols` of a row byte, drawn from screen column `x0`, toggle screen column `px`. -/
def columnsCover (x0 : Nat) (b : Byte) (cols : List (Fin 8)) (px : Fin 64) : Bool :=
  cols.any fun col => spriteBit b col && decide (px = screenCol (x0 + col.val))

theorem screenCol_injective (x0 : Nat) {c d : Fin 8} (h : screenCol (x0 + c.val) = screenCol (x0 + d.val)) :
    c = d := by
  have := congrArg Fin.val h
  simp only [screenCol] at this
  ext; omega

/-- What drawing columns of one row does: it toggles exactly the covered columns of screen row `y`, reports a
collision when one of them was set, and changes nothing but the frame buffer (44_display.md R114). -/
theorem drawColumns_spec (x0 : Nat) (y : Fin 32) (b : Byte) (cols : List (Fin 8)) : ∀ (s : State) (c : Bool),
    cols.Nodup →
    (drawColumns x0 y b cols (s, c)).1 = { s with fb := (drawColumns x0 y b cols (s, c)).1.fb } ∧
    (∀ px py, (drawColumns x0 y b cols (s, c)).1.pixel px py =
      xor (s.pixel px py) (decide (py = y) && columnsCover x0 b cols px)) ∧
    ((drawColumns x0 y b cols (s, c)).2 = true ↔
      c = true ∨ ∃ px, columnsCover x0 b cols px = true ∧ s.pixel px y = true) := by
  induction cols with
  | nil => intro s c _; exact ⟨rfl, by simp [drawColumns, columnsCover], by simp [drawColumns, columnsCover]⟩
  | cons col cols ih =>
    intro s c hnd
    obtain ⟨hcol, hnd⟩ := List.nodup_cons.mp hnd
    have hfree : columnsCover x0 b cols (screenCol (x0 + col.val)) = false := by
      refine List.any_eq_false.mpr fun d hd => ?_
      have : screenCol (x0 + col.val) ≠ screenCol (x0 + d.val) :=
        fun e => hcol (screenCol_injective x0 e ▸ hd)
      simp [this]
    cases hb : spriteBit b col with
    | false =>
      obtain ⟨i1, i2, i3⟩ := ih s c hnd
      simp only [drawColumns, hb, Bool.false_eq_true, if_false]
      exact ⟨i1, by simpa [columnsCover, hb] using i2, by simpa [columnsCover, hb] using i3⟩
    | true =>
      obtain ⟨p1, p2, p3⟩ := s.setPixel_spec (screenCol (x0 + col.val)) y
      generalize hX : screenCol (x0 + col.val) = X at *
      obtain ⟨i1, i2, i3⟩ := ih (s.setPixel X y).1 (c || (s.setPixel X y).2) hnd
      have hcons : ∀ px, columnsCover x0 b (col :: cols) px = (decide (px = X) || columnsCover x0 b cols px) := by
        intro px; simp [columnsCover, hb, hX]
      simp only [drawColumns, hb, if_true, hX]
      refine ⟨?_, fun px py => ?_, ?_⟩
      · rw [i1]; generalize (drawColumns _ _ _ _ _).1.fb = fb; rw [p1]
      · rw [i2, p3, hcons]
        by_cases hpx : px = X
        · subst hpx; simp [hfree]
        · simp [hpx]
      · rw [i3, p2]
        simp only [p3, hcons, Bool.or_eq_true, decide_eq_true_eq, or_assoc]
        refine or_congr Iff.rfl ⟨?_, ?_⟩
        · rintro (h | ⟨px, h1, h2⟩)
          · exact ⟨X, .inl rfl, h⟩
          · have hpx : px ≠ X := fun e => by rw [e, hfree] at h1; cases h1
            exact ⟨px, .inr h1, by simpa [hpx] using h2⟩
        · rintro ⟨px, h1, h2⟩
          by_cases hpx : px = X
          · exact .inl (hpx ▸ h2)
          · exact .inr ⟨px, h1.resolve_left hpx, by simpa [hpx] using h2⟩

theorem spriteCols_nodup : spriteCols.Nodup := by decide

/-- Whether rows `r`, .., `r + k - 1` of the sprite at `base` in `s`, drawn from (`x0`, `y0`), toggle a pixel. -/
def rowsCover (s : State) (base x0 y0 k r : Nat) (px : Fin 64) (py : Fin 32) : Bool :=
  (List.range' r k).any fun j =>
    decide (py = screenRow (y0 + j)) && columnsCover x0 (s.byteAt (base + j)) spriteCols px

/-- What drawing rows does: the rows before the first address out of range are drawn, the collision is reported, the
answer is that address if there is one, and nothing but the frame buffer changes (44_display.md R114). -/
theorem drawRows_spec (base x0 y0 : Nat) : ∀ (k r : Nat) (s : State) (c : Bool), r + k ≤ 32 →
    (drawRows base x0 y0 k r (s, c)).1.1 = { s with fb := (drawRows base x0 y0 k r (s, c)).1.1.fb } ∧
    (∀ px py, (drawRows base x0 y0 k r (s, c)).1.1.pixel px py =
      xor (s.pixel px py) (rowsCover s base x0 y0 (min k (addrMax + 1 - (base + r))) r px py)) ∧
    ((drawRows base x0 y0 k r (s, c)).1.2 = true ↔ c = true ∨ ∃ px py,
      rowsCover s base x0 y0 (min k (addrMax + 1 - (base + r))) r px py = true ∧ s.pixel px py = true) ∧
    (drawRows base x0 y0 k r (s, c)).2 =
      (if k = 0 ∨ base + r + k ≤ addrMax + 1 then none else some (max (base + r) (addrMax + 1))) := by
  intro k
  induction k with
  | zero => intro r s c _; exact ⟨rfl, by simp [drawRows, rowsCover], by simp [drawRows, rowsCover], by simp [drawRows]⟩
  | succ k ih =>
    intro r s c hr
    by_cases h : base + r ≤ addrMax
    · have hread : (s, c).1.memRead (base + r) = some (s.byteAt (base + r)) := s.memRead_of_le h
      simp only [drawRows, hread]
      obtain ⟨c1, c2, c3⟩ := drawColumns_spec x0 (screenRow (y0 + r)) (s.byteAt (base + r)) spriteCols s c
        spriteCols_nodup
      generalize drawColumns x0 (screenRow (y0 + r)) (s.byteAt (base + r)) spriteCols (s, c) = d at *
      obtain ⟨t, e⟩ := d
      simp only at c1 c2 c3
      obtain ⟨i1, i2, i3, i4⟩ := ih (r + 1) t e (by omega)
      have hbytes : ∀ a, t.byteAt a = s.byteAt a := fun a => by rw [c1]; rfl
      have hcov : ∀ m px py, rowsCover t base x0 y0 m (r + 1) px py = rowsCover s base x0 y0 m (r + 1) px py := by
        intro m px py; simp only [rowsCover, hbytes]
      have hm : min (k + 1) (addrMax + 1 - (base + r)) = min k (addrMax + 1 - (base + (r + 1))) + 1 := by omega
      have hle : min k (addrMax + 1 - (base + (r + 1))) ≤ k := Nat.min_le_left _ _
      simp only [hm]
      generalize min k (addrMax + 1 - (base + (r + 1))) = m at *
      have hcons : ∀ px py, rowsCover s base x0 y0 (m + 1) r px py =
          ((decide (py = screenRow (y0 + r)) && columnsCover x0 (s.byteAt (base + r)) spriteCols px) ||
            rowsCover s base x0 y0 m (r + 1) px py) := by
        intro px py; simp [rowsCover, List.range'_succ]
      have hother : ∀ px, rowsCover s base x0 y0 m (r + 1) px (screenRow (y0 + r)) = false := by
        intro px
        refine List.any_eq_false.mpr fun j hj => ?_
        have hj := List.mem_range'.mp hj
        have : screenRow (y0 + r) ≠ screenRow (y0 + j) := by
          intro e; have := congrArg Fin.val e; simp only [screenRow] at this; omega
        simp [this]
      refine ⟨?_, fun px py => ?_, ?_, ?_⟩
      · rw [i1]; generalize (drawRows _ _ _ _ _ _).1.1.fb = fb; rw [c1]
      · rw [i2, c2, hcov, hcons]
        by_cases hpy : py = screenRow (y0 + r)
        · subst hpy; simp [hother]
        · simp [hpy]
      · rw [i3, c3]
        simp only [hcov, hcons, c2, Bool.or_eq_true, or_assoc]
        refine or_congr Iff.rfl ⟨?_, ?_⟩
        · rintro (⟨px, h1, h2⟩ | ⟨px, py, h1, h2⟩)
          · exact ⟨px, _, .inl (by simp [h1]), h2⟩
          · have hpy : py ≠ screenRow (y0 + r) := fun e => by rw [e, hother] at h1; cases h1
            exact ⟨px, py, .inr h1, by simpa [hpy] using h2⟩
        · rintro ⟨px, py, h1, h2⟩
          by_cases hpy : py = screenRow (y0 + r)
          · subst hpy
            refine .inl ⟨px, ?_, h2⟩
            rcases h1 with h1 | h1
            · simpa using h1
            · rw [hother] at h1; cases h1
          · rcases h1 with h1 | h1
            · simp [hpy] at h1
            · exact .inr ⟨px, py, h1, by simpa [hpy] using h2⟩
      · rw [i4]
        by_cases hk : k = 0
        · subst hk; simp only [true_or, if_true]; rw [if_pos]; omega
        · have : max (base + (r + 1)) (addrMax + 1) = max (base + r) (addrMax + 1) := by omega
          rw [this]; congr 1; simp only [eq_iff_iff]; omega
    · have hread : (s, c).1.memRead (base + r) = none := s.memRead_of_gt (Nat.not_le.mp h)
      simp only [drawRows, hread]
      have hm : min (k + 1) (addrMax + 1 - (base + r)) = 0 := by omega
      simp only [hm]
      refine ⟨trivial, by simp [rowsCover], by simp [rowsCover], ?_⟩
      rw [if_neg (by omega)]; congr 1; omega

/-- The pixels rows of a sprite toggle, in the terms claims use. -/
theorem rowsCover_eq_spriteCovers (s : State) (x0 y0 k : Nat) (hk : k ≤ 32) (px : Fin 64) (py : Fin 32) :
    rowsCover s (s.dataAddr 0) x0 y0 k 0 px py = s.spriteCovers x0 y0 k px py := by
  rw [Bool.eq_iff_iff]
  simp only [rowsCover, columnsCover, State.spriteCovers, spriteBit, State.dataAddr, List.any_eq_true,
    List.mem_range'_1, Bool.and_eq_true, decide_eq_true_eq, Nat.add_zero, Nat.zero_add, Nat.zero_le, true_and]
  constructor
  · rintro ⟨j, hj, hy, col, -, hb, hx⟩
    have hyv := congrArg Fin.val hy
    have hxv := congrArg Fin.val hx
    simp only [screenCol, screenRow] at hyv hxv
    have h1 : (py.val + 32 - y0 % 32) % 32 = j := by omega
    have h2 : (px.val + 64 - x0 % 64) % 64 = col.val := by omega
    rw [h1, h2]
    exact ⟨⟨col.isLt, hj⟩, hb⟩
  · rintro ⟨⟨hc, hr⟩, hb⟩
    refine ⟨_, hr, ?_, ⟨_, hc⟩, ?_, hb, ?_⟩
    · ext; simp only [screenRow]; omega
    · have : ∀ col : Fin 8, col ∈ spriteCols := by decide
      exact this _
    · ext; simp only [screenCol]; omega

end Sys2Proof.Machine
end

