-- ==== Sys2Proof/Laws/Frames.lean ====
section
/-! SUPPORT. The frames of the plain updates, and the exact values of the ALU's results and flags. -/

namespace Sys2Proof.Machine

/-! ### Frames of the plain updates -/

theorem onlyRegs_setV (s : State) (x : Reg) (b : Byte) : OnlyRegs [x] s (s.setV x b) :=
  ⟨fun _ hr => State.getV_setV_ne _ _ (by simpa [eq_comm] using hr), fun _ => rfl, rfl⟩

theorem onlyRegs_setResultThenFlag (s : State) (x : Reg) (b f : Byte) :
    OnlyRegs [x, vf] s (s.setResultThenFlag x b f) := by
  refine ⟨fun r hr => ?_, fun _ => rfl, rfl⟩
  simp only [List.mem_cons, List.not_mem_nil, or_false, not_or] at hr
  rw [State.setResultThenFlag, State.getV_setV_ne _ _ (Ne.symm hr.2), State.getV_setV_ne _ _ (Ne.symm hr.1)]

theorem onlyPc_setPc (s : State) (w : Word) : OnlyPc s (s.setPc w) := ⟨fun _ _ => rfl, fun _ => rfl, rfl⟩

theorem onlyPc_skipIf (s : State) (c : Bool) : OnlyPc s (s.skipIf c) := by
  rw [State.skipIf_eq]; exact onlyPc_setPc _ _

theorem onlyIndex_setI (s : State) (w : Word) : OnlyIndex s (s.setI w) := ⟨fun _ _ => rfl, fun _ => rfl, rfl⟩

theorem onlyEngine_setEng (s : State) (e : Engine) : OnlyEngine s (s.setEng e) :=
  ⟨fun _ _ => rfl, fun _ => rfl, rfl⟩

/-- The flag is the later write, so it stands in VF also when the destination is VF (41_alu.md R86). -/
theorem getV_vf_setResultThenFlag (s : State) (x : Reg) (b f : Byte) : (s.setResultThenFlag x b f).getV vf = f := by
  simp [State.setResultThenFlag]

theorem getV_setResultThenFlag (s : State) {x : Reg} (b f : Byte) (h : x ≠ vf) :
    (s.setResultThenFlag x b f).getV x = b := by
  rw [State.setResultThenFlag, State.getV_setV_ne _ _ (Ne.symm h), State.getV_setV_same]

/-! ### Results and flags -/

theorem addResult_toNat (a b : Byte) : (addResult a b).toNat = (a.toNat + b.toNat) % 256 := by simp [addResult]

theorem subResult_toInt (a b : Byte) : ((subResult a b).toNat : Int) = (a.toNat - b.toNat : Int) % 256 := by
  simp [subResult, BitVec.toNat_ofInt]; omega

theorem shrResult_toNat (a : Byte) : (shrResult a).toNat = a.toNat / 2 := by
  simp [shrResult, Nat.shiftRight_eq_div_pow]

theorem shlResult_toNat (a : Byte) : (shlResult a).toNat = a.toNat * 2 % 256 := by
  simp [shlResult, Nat.shiftLeft_eq]

theorem flagByte_toNat (c : Bool) : (flagByte c).toNat = c.toNat := by cases c <;> rfl

theorem shrFlag_toNat : ∀ a : Byte, (shrFlag a).toNat = a.toNat % 2 := by decide

theorem shlFlag_toNat : ∀ a : Byte, (shlFlag a).toNat = a.toNat / 128 := by decide

/-! ### Operand forms -/

theorem zextAddr_toNat (nnn : Addr) : (zextAddr nnn).toNat = nnn.toNat := by
  simp [zextAddr]; omega

theorem zextByte_toNat (b : Byte) : (zextByte b).toNat = b.toNat := by
  simp [zextByte]; omega

theorem indexPast_toNat (s : State) (x : Reg) : (s.indexPast x).toNat = (s.i.toNat + x.val + 1) % 65536 := by
  simp [State.indexPast]

theorem glyphAddr_toNat (mask : Bool) (b : Byte) :
    (glyphAddr mask b).toNat = 5 * if mask then b.toNat % 16 else b.toNat := by
  have := b.isLt
  have h15 : ∀ n : Nat, n &&& 15 = n % 16 := fun n => Nat.and_two_pow_sub_one_eq_mod n 4
  cases mask <;> simp [glyphAddr, glyphBase, h15] <;> omega

/-! ### Sprites -/

/-- The coordinate a register gives DXYN, in the terms claims use. -/
theorem State.drawCoord_eq (s : State) (r : Reg) : s.drawCoord r = s.coordOf r := by
  unfold State.drawCoord State.coordOf
  cases h : s.cfg.drawVfClearFirst
  · simp
  · by_cases hr : r = vf
    · subst hr; simp
    · simp [hr, Ne.symm hr]

/-- Frame buffers whose pixels agree are equal. -/
theorem State.fb_ext {s t : State} (h : ∀ px py, t.pixel px py = s.pixel px py) : t.fb = s.fb := by
  apply Vector.ext
  intro y hy
  apply BitVec.eq_of_getLsbD_eq
  intro x hx
  exact h ⟨x, hx⟩ ⟨y, hy⟩

/-- A sprite depends on nothing but `I` and the bytes of memory. -/
theorem State.spriteCovers_congr {s t : State} (hb : ∀ a, t.byteAt a = s.byteAt a) (hi : t.i = s.i)
    (x0 y0 k : Nat) (px : Fin 64) (py : Fin 32) : t.spriteCovers x0 y0 k px py = s.spriteCovers x0 y0 k px py := by
  simp only [State.spriteCovers, State.dataAddr, hb, hi]

end Sys2Proof.Machine
end

