-- ==== Sys2Proof/Laws/Exec.lean ====
section
/-! SUPPORT. What the meaning of an instruction can do to each part of the state, said once for all instructions. -/

namespace Sys2Proof.Machine

/-- What executing `i` in `s` leaves, when it ends in `t`. -/
structure ExecFrame (i : Instr) (s t : State) : Prop where
  cfg : t.cfg = s.cfg
  soundOn : t.soundOn = s.soundOn
  sched : t.sched = s.sched
  batch : t.batch = s.batch
  keysDown : t.keysDown = s.keysDown
  lastKey : t.lastKey = s.lastKey
  inputs : t.inputs = s.inputs
  dt : (∀ x, i ≠ .ldDtVx x) → t.dt = s.dt
  st : (∀ x, i ≠ .ldStVx x) → t.st = s.st
  drawCount : (∀ x nn, i ≠ .rndVxByte x nn) → t.drawCount = s.drawCount
  pc : writesPc i = false → t.pc = s.pc
  eng : (∀ x, i ≠ .ldVxK x) → t.eng = s.eng ∨ ∃ r, t.eng = .halted r
  regs : SameRegsBut (writtenRegs i) s t
  mem : writesMemory i = false → t.mem = s.mem
  fb : writesDisplay i = false → t.fb = s.fb
  index : writesIndex i = false → t.i = s.i
  stack : touchesStack i = false → t.stack = s.stack ∧ t.sp = s.sp
  canonical : s.MemCanonical → t.MemCanonical
  bounded : s.StackBounded → t.StackBounded

theorem ExecFrame.refl (i : Instr) (s : State) : ExecFrame i s s where
  cfg := rfl
  soundOn := rfl
  sched := rfl
  batch := rfl
  keysDown := rfl
  lastKey := rfl
  inputs := rfl
  dt _ := rfl
  st _ := rfl
  drawCount _ := rfl
  pc _ := rfl
  eng _ := .inl rfl
  regs _ _ := rfl
  mem _ := rfl
  fb _ := rfl
  index _ := rfl
  stack _ := ⟨rfl, rfl⟩
  canonical := id
  bounded := id

theorem ExecFrame.setPc {i : Instr} {s t : State} (h : ExecFrame i s t) (hi : writesPc i = true) (w : Word) :
    ExecFrame i s (t.setPc w) :=
  { h with pc := fun e => by rw [hi] at e; cases e }

/-- A halt is in every instruction's frame. -/
theorem ExecFrame.haltInstr {i : Instr} {s t : State} (h : ExecFrame i s t) (j : Instr) (cause : HaltCause)
    (f : Option Nat) : ExecFrame i s (t.haltInstr j cause f) :=
  { h with eng := fun _ => .inr ⟨_, rfl⟩ }

theorem ExecFrame.skipIf {i : Instr} {s t : State} (h : ExecFrame i s t) (hi : writesPc i = true) (c : Bool) :
    ExecFrame i s (t.skipIf c) := by
  rw [State.skipIf_eq]; exact h.setPc hi _

theorem ExecFrame.setV {i : Instr} {s t : State} (h : ExecFrame i s t) {x : Reg} (hx : x ∈ writtenRegs i) (b : Byte) :
    ExecFrame i s (t.setV x b) :=
  { h with
    regs := fun r hr => (State.getV_setV_ne _ _ (fun e => hr (by rwa [← e]))).trans (h.regs r hr) }

theorem ExecFrame.setI {i : Instr} {s t : State} (h : ExecFrame i s t) (hi : writesIndex i = true) (w : Word) :
    ExecFrame i s (t.setI w) :=
  { h with index := fun e => by rw [hi] at e; cases e }

theorem ExecFrame.fbUpdate {i : Instr} {s t : State} (h : ExecFrame i s t) (hi : writesDisplay i = true)
    (fb : Vector (BitVec 64) 32) : ExecFrame i s { t with fb := fb } :=
  { h with fb := fun e => by rw [hi] at e; cases e }

theorem ExecFrame.stackUpdate {i : Instr} {s : State} (hi : touchesStack i = true) (stack : List Word) (sp : Nat)
    (hb : s.StackBounded → stack.length = s.cfg.stackDepth ∧ sp ≤ s.cfg.stackDepth) :
    ExecFrame i s { s with stack := stack, sp := sp } :=
  { ExecFrame.refl i s with
    stack := fun e => by rw [hi] at e; cases e
    bounded := hb }

theorem ExecFrame.storeBytes {i : Instr} {s t : State} (h : ExecFrame i s t) (hi : writesMemory i = true) (a : Nat)
    (bs : List Byte) : ExecFrame i s (State.storeBytes a bs t).1 := by
  have hw := State.storeBytes_keeps_wf a bs t
  have hf := State.storeBytes_frame a bs t
  generalize (State.storeBytes a bs t).1 = u at hw hf
  rw [hf] at hw ⊢
  exact { h with
    mem := fun e => by rw [hi] at e; cases e
    canonical := fun hs => hw (h.canonical hs) }

theorem ExecFrame.loadRegs {i : Instr} {s t : State} (h : ExecFrame i s t) {rs : List Reg} (hn : rs.Nodup)
    (hi : ∀ r ∈ rs, r ∈ writtenRegs i) (a : Nat) : ExecFrame i s (State.loadRegs a rs t).1 := by
  have ho := fun r => State.loadRegs_other a t hn (r := r)
  have hf := State.loadRegs_frame a t hn
  generalize (State.loadRegs a rs t).1 = u at ho hf
  have hreg : SameRegsBut (writtenRegs i) s u := fun r hr => (ho r (fun e => hr (hi r e))).trans (h.regs r hr)
  rw [hf] at hreg ⊢
  exact { h with regs := hreg }

theorem ExecFrame.drawRows {i : Instr} {s t : State} (h : ExecFrame i s t) (hi : writesDisplay i = true)
    (base x0 y0 k : Nat) (c : Bool) (hk : k ≤ 32) : ExecFrame i s (drawRows base x0 y0 k 0 (t, c)).1.1 := by
  have hf := (drawRows_spec base x0 y0 k 0 t c (by omega)).1
  rw [hf]
  exact h.fbUpdate hi _

/-- Every instruction ends in a next state, and keeps its frame. -/
theorem exec_spec (i : Instr) (s : State) : ∃ t, exec i s = .next t ∧ ExecFrame i s t := by
  have h := ExecFrame.refl i s
  cases i with
  | cls => exact ⟨_, rfl, h.fbUpdate rfl _⟩
  | ret =>
    simp only [exec, execRet]
    rcases s.pop_cases with ⟨k, hk, e⟩ | ⟨_, e⟩ <;> rw [e]
    · exact ⟨_, rfl, (ExecFrame.stackUpdate rfl s.stack k fun ⟨h1, h2⟩ => ⟨h1, by omega⟩).setPc rfl _⟩
    · exact ⟨_, rfl, h.haltInstr _ _ _⟩
  | jpAddr nnn => exact ⟨_, rfl, h.setPc rfl _⟩
  | callAddr nnn =>
    simp only [exec, execCallAddr]
    rcases s.push_cases s.pc with ⟨hlt, e⟩ | ⟨_, e⟩ <;> rw [e]
    · exact ⟨_, rfl, (ExecFrame.stackUpdate rfl (s.stack.set s.sp s.pc) (s.sp + 1) fun ⟨h1, _⟩ =>
        ⟨by simpa using h1, hlt⟩).setPc rfl _⟩
    · exact ⟨_, rfl, h.haltInstr _ _ _⟩
  | seVxByte x nn => exact ⟨_, rfl, h.skipIf rfl _⟩
  | sneVxByte x nn => exact ⟨_, rfl, h.skipIf rfl _⟩
  | seVxVy x y low => exact ⟨_, rfl, h.skipIf rfl _⟩
  | sneVxVy x y low => exact ⟨_, rfl, h.skipIf rfl _⟩
  | jpV0Addr nnn => exact ⟨_, rfl, h.setPc rfl _⟩
  | ldVxByte x nn => exact ⟨_, rfl, h.setV (by simp [writtenRegs]) _⟩
  | addVxByte x nn => exact ⟨_, rfl, h.setV (by simp [writtenRegs]) _⟩
  | ldVxVy x y => exact ⟨_, rfl, h.setV (by simp [writtenRegs]) _⟩
  | orVxVy x y => exact ⟨_, rfl, h.setV (by simp [writtenRegs]) _⟩
  | andVxVy x y => exact ⟨_, rfl, h.setV (by simp [writtenRegs]) _⟩
  | xorVxVy x y => exact ⟨_, rfl, h.setV (by simp [writtenRegs]) _⟩
  | addVxVy x y => exact ⟨_, rfl, (h.setV (by simp [writtenRegs]) _).setV (by simp [writtenRegs]) _⟩
  | subVxVy x y => exact ⟨_, rfl, (h.setV (by simp [writtenRegs]) _).setV (by simp [writtenRegs]) _⟩
  | shrVx x y => exact ⟨_, rfl, (h.setV (by simp [writtenRegs]) _).setV (by simp [writtenRegs]) _⟩
  | subnVxVy x y => exact ⟨_, rfl, (h.setV (by simp [writtenRegs]) _).setV (by simp [writtenRegs]) _⟩
  | shlVx x y => exact ⟨_, rfl, (h.setV (by simp [writtenRegs]) _).setV (by simp [writtenRegs]) _⟩
  | rndVxByte x nn =>
    have hd : ExecFrame (.rndVxByte x nn) s s.draw8.2 := { h with drawCount := fun e => absurd rfl (e x nn) }
    exact ⟨_, rfl, hd.setV (by simp [writtenRegs]) _⟩
  | ldIAddr nnn => exact ⟨_, rfl, h.setI rfl _⟩
  | addIVx x => exact ⟨_, rfl, h.setI rfl _⟩
  | ldFVx x => exact ⟨_, rfl, h.setI rfl _⟩
  | ldBVx x =>
    have hm := h.storeBytes rfl (s.dataAddr 0) (bcdDigits (s.getV x))
    simp only [exec, execLdBVx]
    generalize State.storeBytes (s.dataAddr 0) (bcdDigits (s.getV x)) s = r at hm
    obtain ⟨t, _ | a⟩ := r
    · exact ⟨_, rfl, hm⟩
    · exact ⟨_, rfl, hm.haltInstr _ _ _⟩
  | ldMemVx x =>
    have hm := h.storeBytes rfl (s.dataAddr 0) ((regsUpTo x).map s.getV)
    simp only [exec, execLdMemVx]
    generalize State.storeBytes (s.dataAddr 0) ((regsUpTo x).map s.getV) s = r at hm
    obtain ⟨t, _ | a⟩ := r
    · exact ⟨_, rfl, hm.setI rfl _⟩
    · exact ⟨_, rfl, hm.haltInstr _ _ _⟩
  | ldVxMem x =>
    have hm := h.loadRegs (regsUpTo_nodup x) (fun _ hr => hr) (s.dataAddr 0)
    simp only [exec, execLdVxMem]
    generalize State.loadRegs (s.dataAddr 0) (regsUpTo x) s = r at hm
    obtain ⟨t, _ | a⟩ := r
    · exact ⟨_, rfl, hm.setI rfl _⟩
    · exact ⟨_, rfl, hm.haltInstr _ _ _⟩
  | drwVxVyNibble x y n =>
    have hvf : vf ∈ writtenRegs (.drwVxVyNibble x y n) := by simp [writtenRegs]
    have hm := (h.setV hvf 0).drawRows rfl (s.dataAddr 0) (s.drawCoord x) (s.drawCoord y) n.toNat false
      (by have := n.isLt; omega)
    simp only [exec, execDrwVxVyNibble]
    generalize drawRows (s.dataAddr 0) (s.drawCoord x) (s.drawCoord y) n.toNat 0 (s.setV vf 0, false) = r at hm
    obtain ⟨⟨t, c⟩, _ | a⟩ := r
    · cases c
      · exact ⟨_, rfl, hm⟩
      · exact ⟨_, rfl, hm.setV hvf 1⟩
    · exact ⟨_, rfl, hm.haltInstr _ _ _⟩
  | ldVxDt x => exact ⟨_, rfl, h.setV (by simp [writtenRegs]) _⟩
  | ldDtVx x => exact ⟨_, rfl, { h with dt := fun e => absurd rfl (e x) }⟩
  | ldStVx x => exact ⟨_, rfl, { h with st := fun e => absurd rfl (e x) }⟩
  | skpVx x =>
    simp only [exec, execSkpVx]
    cases s.keyQuery (s.getV x) with
    | none => exact ⟨_, rfl, h.haltInstr _ _ _⟩
    | some p => exact ⟨_, rfl, h.skipIf rfl _⟩
  | sknpVx x =>
    simp only [exec, execSknpVx]
    cases s.keyQuery (s.getV x) with
    | none => exact ⟨_, rfl, h.haltInstr _ _ _⟩
    | some p => exact ⟨_, rfl, h.skipIf rfl _⟩
  | ldVxK x => exact ⟨_, rfl, { h with eng := fun e => absurd rfl (e x) }⟩

theorem exec_completes (i : Instr) (s : State) : ∃ t, exec i s = .next t :=
  let ⟨t, h, _⟩ := exec_spec i s
  ⟨t, h⟩

theorem exec_frame {i : Instr} {s t : State} (h : exec i s = .next t) : ExecFrame i s t := by
  obtain ⟨u, hu, hf⟩ := exec_spec i s
  rw [hu] at h
  cases h
  exact hf

end Sys2Proof.Machine
end

