-- ==== Sys2Proof/Laws/PerInstr.lean ====
section
/-! SUPPORT. What is said of every instruction as syntax, one lemma per constructor of `Instr`. -/

namespace Sys2Proof.Laws.EncodeDecode

/-- The decoder reads a well-formed instruction back from its own word, under either setting of `STRICT_5_9`. -/
def Statement (i : Instr) : Prop := ∀ strict : Bool, i.wellFormed strict = true → decodeWord strict (encode i) = some i

theorem cls : Statement .cls := by
  intro strict _
  simp [decodeWord, encode, decodeFamily0]

theorem ret : Statement .ret := by
  intro strict _
  simp [decodeWord, encode, decodeFamily0]

theorem jpAddr (nnn : Addr) : Statement (.jpAddr nnn) := by
  intro strict _
  simp [decodeWord, encode]

theorem callAddr (nnn : Addr) : Statement (.callAddr nnn) := by
  intro strict _
  simp [decodeWord, encode]

theorem seVxByte (x : Reg) (nn : Byte) : Statement (.seVxByte x nn) := by
  intro strict _
  simp [decodeWord, encode]

theorem sneVxByte (x : Reg) (nn : Byte) : Statement (.sneVxByte x nn) := by
  intro strict _
  simp [decodeWord, encode]

theorem seVxVy (x : Reg) (y : Reg) (low : Nibble) : Statement (.seVxVy x y low) := by
  intro strict h
  cases strict <;> simp_all [Instr.wellFormed, decodeWord, encode]

theorem ldVxByte (x : Reg) (nn : Byte) : Statement (.ldVxByte x nn) := by
  intro strict _
  simp [decodeWord, encode]

theorem addVxByte (x : Reg) (nn : Byte) : Statement (.addVxByte x nn) := by
  intro strict _
  simp [decodeWord, encode]

theorem ldVxVy (x : Reg) (y : Reg) : Statement (.ldVxVy x y) := by
  intro strict _
  simp [decodeWord, encode, decodeFamily8]

theorem orVxVy (x : Reg) (y : Reg) : Statement (.orVxVy x y) := by
  intro strict _
  simp [decodeWord, encode, decodeFamily8]

theorem andVxVy (x : Reg) (y : Reg) : Statement (.andVxVy x y) := by
  intro strict _
  simp [decodeWord, encode, decodeFamily8]

theorem xorVxVy (x : Reg) (y : Reg) : Statement (.xorVxVy x y) := by
  intro strict _
  simp [decodeWord, encode, decodeFamily8]

theorem addVxVy (x : Reg) (y : Reg) : Statement (.addVxVy x y) := by
  intro strict _
  simp [decodeWord, encode, decodeFamily8]

theorem subVxVy (x : Reg) (y : Reg) : Statement (.subVxVy x y) := by
  intro strict _
  simp [decodeWord, encode, decodeFamily8]

theorem shrVx (x : Reg) (y : Reg) : Statement (.shrVx x y) := by
  intro strict _
  simp [decodeWord, encode, decodeFamily8]

theorem subnVxVy (x : Reg) (y : Reg) : Statement (.subnVxVy x y) := by
  intro strict _
  simp [decodeWord, encode, decodeFamily8]

theorem shlVx (x : Reg) (y : Reg) : Statement (.shlVx x y) := by
  intro strict _
  simp [decodeWord, encode, decodeFamily8]

theorem sneVxVy (x : Reg) (y : Reg) (low : Nibble) : Statement (.sneVxVy x y low) := by
  intro strict h
  cases strict <;> simp_all [Instr.wellFormed, decodeWord, encode]

theorem ldIAddr (nnn : Addr) : Statement (.ldIAddr nnn) := by
  intro strict _
  simp [decodeWord, encode]

theorem jpV0Addr (nnn : Addr) : Statement (.jpV0Addr nnn) := by
  intro strict _
  simp [decodeWord, encode]

theorem rndVxByte (x : Reg) (nn : Byte) : Statement (.rndVxByte x nn) := by
  intro strict _
  simp [decodeWord, encode]

theorem drwVxVyNibble (x : Reg) (y : Reg) (n : Nibble) : Statement (.drwVxVyNibble x y n) := by
  intro strict _
  simp [decodeWord, encode]

theorem skpVx (x : Reg) : Statement (.skpVx x) := by
  intro strict _
  simp [decodeWord, encode, decodeFamilyE]

theorem sknpVx (x : Reg) : Statement (.sknpVx x) := by
  intro strict _
  simp [decodeWord, encode, decodeFamilyE]

theorem ldVxDt (x : Reg) : Statement (.ldVxDt x) := by
  intro strict _
  simp [decodeWord, encode, decodeFamilyF]

theorem ldVxK (x : Reg) : Statement (.ldVxK x) := by
  intro strict _
  simp [decodeWord, encode, decodeFamilyF]

theorem ldDtVx (x : Reg) : Statement (.ldDtVx x) := by
  intro strict _
  simp [decodeWord, encode, decodeFamilyF]

theorem ldStVx (x : Reg) : Statement (.ldStVx x) := by
  intro strict _
  simp [decodeWord, encode, decodeFamilyF]

theorem addIVx (x : Reg) : Statement (.addIVx x) := by
  intro strict _
  simp [decodeWord, encode, decodeFamilyF]

theorem ldFVx (x : Reg) : Statement (.ldFVx x) := by
  intro strict _
  simp [decodeWord, encode, decodeFamilyF]

theorem ldBVx (x : Reg) : Statement (.ldBVx x) := by
  intro strict _
  simp [decodeWord, encode, decodeFamilyF]

theorem ldMemVx (x : Reg) : Statement (.ldMemVx x) := by
  intro strict _
  simp [decodeWord, encode, decodeFamilyF]

theorem ldVxMem (x : Reg) : Statement (.ldVxMem x) := by
  intro strict _
  simp [decodeWord, encode, decodeFamilyF]

end Sys2Proof.Laws.EncodeDecode
end

