-- ==== Sys2Proof/Laws/Step.lean ====
section
/-! SUPPORT. What the start and the end of a tick, a `step()` call and a step of the machine can do, said once. -/

namespace Sys2Proof.Machine

/-! ### The start of a tick -/

/-- The start of a tick changes nothing but the keyboard and the inputs. -/
theorem State.pollInput_frame (s : State) :
    s.pollInput =
      { s with inputs := s.inputs.tail, keysDown := s.pollInput.keysDown, lastKey := s.pollInput.lastKey } := by
  unfold State.pollInput
  rcases h : s.inputs with _ | ⟨_ | e, rest⟩
  · cases s; cases h; rfl
  · rfl
  · cases e <;> rfl

theorem State.beginTick_frame (s : State) :
    s.beginTick =
      { s with inputs := if s.batch = 0 then s.inputs.tail else s.inputs
               keysDown := s.beginTick.keysDown, lastKey := s.beginTick.lastKey } := by
  unfold State.beginTick
  by_cases h : s.batch = 0
  · rw [if_pos h, if_pos h]; exact s.pollInput_frame
  · rw [if_neg h, if_neg h]

theorem State.beginTick_later (s : State) (h : s.batch ≠ 0) : s.beginTick = s := if_neg h

@[simp] theorem State.beginTick_cfg (s : State) : s.beginTick.cfg = s.cfg := by rw [s.beginTick_frame]
@[simp] theorem State.beginTick_v (s : State) : s.beginTick.v = s.v := by rw [s.beginTick_frame]
@[simp] theorem State.beginTick_pc (s : State) : s.beginTick.pc = s.pc := by rw [s.beginTick_frame]
@[simp] theorem State.beginTick_i (s : State) : s.beginTick.i = s.i := by rw [s.beginTick_frame]
@[simp] theorem State.beginTick_stack (s : State) : s.beginTick.stack = s.stack := by rw [s.beginTick_frame]
@[simp] theorem State.beginTick_sp (s : State) : s.beginTick.sp = s.sp := by rw [s.beginTick_frame]
@[simp] theorem State.beginTick_dt (s : State) : s.beginTick.dt = s.dt := by rw [s.beginTick_frame]
@[simp] theorem State.beginTick_st (s : State) : s.beginTick.st = s.st := by rw [s.beginTick_frame]
@[simp] theorem State.beginTick_eng (s : State) : s.beginTick.eng = s.eng := by rw [s.beginTick_frame]
@[simp] theorem State.beginTick_fb (s : State) : s.beginTick.fb = s.fb := by rw [s.beginTick_frame]
@[simp] theorem State.beginTick_soundOn (s : State) : s.beginTick.soundOn = s.soundOn := by rw [s.beginTick_frame]
@[simp] theorem State.beginTick_sched (s : State) : s.beginTick.sched = s.sched := by rw [s.beginTick_frame]
@[simp] theorem State.beginTick_batch (s : State) : s.beginTick.batch = s.batch := by rw [s.beginTick_frame]
@[simp] theorem State.beginTick_mem (s : State) : s.beginTick.mem = s.mem := by rw [s.beginTick_frame]
@[simp] theorem State.beginTick_drawCount (s : State) : s.beginTick.drawCount = s.drawCount := by
  rw [s.beginTick_frame]
@[simp] theorem State.beginTick_inputs (s : State) :
    s.beginTick.inputs = if s.batch = 0 then s.inputs.tail else s.inputs := by rw [s.beginTick_frame]
@[simp] theorem State.getV_beginTick (s : State) (r : Reg) : s.beginTick.getV r = s.getV r := by
  simp [State.getV]
@[simp] theorem State.byteAt_beginTick (s : State) (a : Nat) : s.beginTick.byteAt a = s.byteAt a := by
  simp [State.byteAt]

/-! ### The end of a tick -/

theorem countDown_toNat (b : Byte) : (countDown b).toNat = b.toNat - 1 := by
  unfold countDown
  split_ifs with h
  · rw [BitVec.toNat_sub_of_le (by rw [BitVec.le_def]; exact h)]; rfl
  · omega

/-- The end of a tick, in one record. -/
theorem State.endTick_eq (s : State) :
    s.endTick =
      { s with dt := countDown s.dt, st := countDown s.st, soundOn := decide (s.st.toNat > 0)
               sched := if s.eng.isHalted then .stopped else s.sched, batch := 0 } := by
  unfold State.endTick State.stopIfHalted State.tickTimers
  cases h : s.eng.isHalted <;> simp [State.setDt, State.setSt, State.setSound, h]

/-- After a `step()` call the batch goes on, or the tick ends. -/
theorem State.afterStepCall_cases (s : State) :
    (s.eng = .running ∧ s.batch + 1 < s.cfg.batchSize ∧ s.afterStepCall = s.countStep) ∨
    (¬ (s.eng = .running ∧ s.batch + 1 < s.cfg.batchSize) ∧ s.afterStepCall = s.endTick) := by
  have hend : s.countStep.endTick = s.endTick := by rw [State.endTick_eq, State.endTick_eq]; rfl
  unfold State.afterStepCall
  cases he : s.eng with
  | running =>
    by_cases hb : s.batch + 1 < s.cfg.batchSize
    · exact .inl ⟨rfl, hb, by simp [Engine.isRunning, hb]⟩
    · exact .inr ⟨fun h => hb h.2, by simp [Engine.isRunning, hb, hend]⟩
  | waitingForKey d => exact .inr ⟨fun h => (by cases h.1), by simp [Engine.isRunning, hend]⟩
  | halted h => exact .inr ⟨fun h => (by cases h.1), by simp [Engine.isRunning, hend]⟩

/-! ### One `step()` call -/

/-- The word the next fetch reads, high byte first (20_memory.md R47). -/
def State.nextWord (s : State) : Word := s.byteAt s.pc.toNat ++ s.byteAt (s.pc.toNat + 1)

/-- What one `step()` call can do: a halted fetch, an unsupported word, or the instruction at `PC`. -/
theorem State.stepCall_cases (s : State) :
    (∃ cause, s.stepCall = .next (s.raiseHalt cause none s.pc none)) ∨
    (s.pc.toNat ≤ 0xFFE ∧ decodeWord s.cfg.strict59 s.nextWord = none ∧
      s.stepCall = .next ((s.setPc (s.pc + 2)).raiseHalt .unsupportedOpcode (some s.nextWord) s.pc none)) ∨
    ∃ i t, s.pc.toNat ≤ 0xFFE ∧ decodeWord s.cfg.strict59 s.nextWord = some i ∧
      exec i (s.setPc (s.pc + 2)) = .next t ∧ s.stepCall = .next t := by
  unfold State.stepCall
  rcases s.fetch_cases with ⟨_, h⟩ | ⟨_, _, h⟩ | ⟨_, hr, h⟩ <;> simp only [h]
  · exact .inl ⟨_, rfl⟩
  · exact .inl ⟨_, rfl⟩
  · have hpc : s.pc.toNat ≤ 0xFFE := by simp only [addrMax] at hr; omega
    unfold State.dispatch
    simp only [State.setPc_cfg]
    cases hd : decodeWord s.cfg.strict59 s.nextWord with
    | none =>
      have hd' : decodeWord s.cfg.strict59 (wordOfBytes (s.byteAt s.pc.toNat) (s.byteAt (s.pc.toNat + 1))) = none := hd
      exact .inr (.inl ⟨hpc, rfl, by simp only [hd']; rfl⟩)
    | some i =>
      have hd' : decodeWord s.cfg.strict59 (wordOfBytes (s.byteAt s.pc.toNat) (s.byteAt (s.pc.toNat + 1))) = some i := hd
      obtain ⟨t, ht⟩ := exec_completes i (s.setPc (s.pc + 2))
      exact .inr (.inr ⟨i, t, hpc, rfl, ht, by simp only [hd', ht]⟩)

theorem State.stepCall_completes (s : State) : ∃ t, s.stepCall = .next t := by
  rcases s.stepCall_cases with ⟨_, h⟩ | ⟨_, _, h⟩ | ⟨_, t, _, _, _, h⟩
  · exact ⟨_, h⟩
  · exact ⟨_, h⟩
  · exact ⟨t, h⟩

/-- What no `step()` call touches. -/
theorem State.stepCall_frame {s u : State} (h : s.stepCall = .next u) :
    u.cfg = s.cfg ∧ u.sched = s.sched ∧ u.batch = s.batch ∧ u.inputs = s.inputs ∧ u.soundOn = s.soundOn ∧
      u.keysDown = s.keysDown ∧ u.lastKey = s.lastKey := by
  rcases s.stepCall_cases with ⟨_, e⟩ | ⟨_, _, e⟩ | ⟨i, t, _, _, he, e⟩ <;> rw [h] at e <;> cases e
  · exact ⟨rfl, rfl, rfl, rfl, rfl, rfl, rfl⟩
  · exact ⟨rfl, rfl, rfl, rfl, rfl, rfl, rfl⟩
  · have f := exec_frame he
    exact ⟨f.cfg, f.sched, f.batch, f.inputs, f.soundOn, f.keysDown, f.lastKey⟩

/-- What a resume attempt can do: it takes the latched key, or finds none (60_exceptions.md R125). -/
theorem State.resumeAttempt_cases (s : State) (d : Reg) :
    (∃ k, s.lastKey = some k ∧ s.resumeAttempt d =
      (({ s with lastKey := none } : State).setV d (BitVec.ofNat 8 k.val)).setEng .running) ∨
    (s.lastKey = none ∧ s.resumeAttempt d = s) := by
  unfold State.resumeAttempt State.takeLastPressedKey
  cases h : s.lastKey with
  | none => exact .inr ⟨rfl, by simp only [← h]⟩
  | some k => exact .inl ⟨k, rfl, rfl⟩

/-! ### One step of the machine -/

/-- What a step can do. -/
theorem step_cases {s t : State} (h : step s = .next t) : s.sched = .active ∧
    ((s.eng = .running ∧ s.batch < s.cfg.batchSize ∧ ∃ u, s.beginTick.stepCall = .next u ∧ t = u.afterStepCall) ∨
     (s.eng = .running ∧ ¬ s.batch < s.cfg.batchSize ∧ t = s.beginTick.endTick) ∨
     (∃ d, s.eng = .waitingForKey d ∧ t = (s.beginTick.resumeAttempt d).endTick) ∨
     ∃ r, s.eng = .halted r ∧ t = s.beginTick.endTick) := by
  unfold step State.cycle at h
  cases hs : s.sched with
  | stopped => rw [hs] at h; cases h
  | active =>
    refine ⟨rfl, ?_⟩
    rw [hs] at h
    simp only [State.beginTick_eng] at h
    cases he : s.eng with
    | running =>
      simp only [he, State.runStep, State.beginTick_batch, State.beginTick_cfg] at h
      split_ifs at h with hb
      · obtain ⟨u, hu⟩ := s.beginTick.stepCall_completes
        simp only [hu] at h
        cases h
        exact .inl ⟨rfl, hb, u, hu, rfl⟩
      · cases h
        exact .inr (.inl ⟨rfl, hb, rfl⟩)
    | waitingForKey d =>
      simp only [he] at h
      cases h
      exact .inr (.inr (.inl ⟨d, rfl, rfl⟩))
    | halted r =>
      simp only [he] at h
      cases h
      exact .inr (.inr (.inr ⟨r, rfl, rfl⟩))

theorem step_stopped {s : State} (hs : s.sched = .stopped) : step s = .fault .schedulerStopped := by
  unfold step State.cycle
  simp only [hs]

/-- A step of a running engine inside its batch is one `step()` call. -/
theorem step_running {s u : State} (hs : s.sched = .active) (he : s.eng = .running) (hb : s.batch < s.cfg.batchSize)
    (hu : s.beginTick.stepCall = .next u) : step s = .next u.afterStepCall := by
  unfold step State.cycle
  rw [hs]
  simp only [State.beginTick_eng, he, State.runStep, State.beginTick_batch, State.beginTick_cfg, hb, if_true, hu]

theorem step_waiting {s : State} {d : Reg} (hs : s.sched = .active) (he : s.eng = .waitingForKey d) :
    step s = .next (s.beginTick.resumeAttempt d).endTick := by
  unfold step State.cycle
  rw [hs]
  simp only [State.beginTick_eng, he]

theorem step_halted {s : State} {r : HaltRecord} (hs : s.sched = .active) (he : s.eng = .halted r) :
    step s = .next s.beginTick.endTick := by
  unfold step State.cycle
  rw [hs]
  simp only [State.beginTick_eng, he]

theorem step_completes {s : State} (hs : s.sched = .active) : ∃ t, step s = .next t := by
  cases he : s.eng with
  | running =>
    by_cases hb : s.batch < s.cfg.batchSize
    · obtain ⟨u, hu⟩ := s.beginTick.stepCall_completes
      exact ⟨_, step_running hs he hb hu⟩
    · refine ⟨s.beginTick.endTick, ?_⟩
      unfold step State.cycle
      rw [hs]
      simp only [State.beginTick_eng, he, State.runStep, State.beginTick_batch, State.beginTick_cfg, hb, if_false]
  | waitingForKey d => exact ⟨_, step_waiting hs he⟩
  | halted r => exact ⟨_, step_halted hs he⟩

/-! ### Runs -/

theorem run_succ {s t : State} (h : step s = .next t) (n : Nat) : core.run (n + 1) s = core.run n t := by
  have : core.step s = .next t := h
  simp only [Host.Core.run, this]

theorem run_stopped {s : State} (h : s.sched = .stopped) (n : Nat) :
    core.run (n + 1) s = .fault .schedulerStopped := by
  have : core.step s = .fault .schedulerStopped := step_stopped h
  simp only [Host.Core.run, this]

end Sys2Proof.Machine
end

