-- ==== Sys2Proof/Tests/Slice0.lean ====
section
/-! SUPPORT. Tests of the model, each about one step on a small state, and witnesses that the hypotheses of the
statements can be met. Expected results are those of spec/95_test_vectors.md (its section is named beside each group)
or are worked out by hand from the rule named. -/

open Sys2Proof Sys2Proof.Machine

namespace Sys2Proof.Tests

/-! ### Helpers -/

/-- Whether an outcome is a next state of which `p` holds. -/
def nextIs (o : Result) (p : State → Bool) : Bool :=
  match o with
  | .next t => p t
  | _ => false

/-- The reset state with the listed registers set. -/
def withRegs (l : List (Reg × Byte)) : State := l.foldl (fun s p => s.setV p.1 p.2) State.reset

/-- A state with bytes stored from an address. -/
def withBytes (a : Nat) (bs : List Byte) (s : State) : State := (State.storeBytes a bs s).1

/-- A state with another configuration. -/
def withCfg (f : Config → Config) (s : State) : State := { s with cfg := f s.cfg }

/-- The halt of an instruction's word at 0x200. -/
def haltAt200 (op : Word) (cause : HaltCause) (f : Option Nat) : Engine :=
  .halted { cause := cause, opcode := some op, addr := 0x200, faultAddr := f }

/-- `PC` as the meaning of an instruction fetched from 0x200 sees it. -/
def at200 (s : State) : State := s.setPc 0x202

/-! ### Well-formedness (30_encoding.md R68) -/

theorem test_wf_se_low_nibble_refused : Instr.wellFormed true (.seVxVy 1 2 1) = false := by decide
theorem test_wf_sne_low_nibble_refused : Instr.wellFormed true (.sneVxVy 0xA 0xB 7) = false := by decide
theorem test_wf_low_nibble_by_default : Instr.wellFormed false (.seVxVy 1 2 1) = true := by decide

/-! ### Decoding: a word of every instruction, bit by bit from its encoding (spec/opcode_table.json) -/

theorem test_decode_fixed_words :
    decodeWord false 0b0000000011100000 = some .cls ∧ decodeWord false 0b0000000011101110 = some .ret := by decide

theorem test_decode_addresses :
    decodeWord false 0b0001101010111100 = some (.jpAddr 0xABC) ∧
    decodeWord false 0b0010001100000000 = some (.callAddr 0x300) ∧
    decodeWord false 0b1010000100100011 = some (.ldIAddr 0x123) ∧
    decodeWord false 0b1011000100100011 = some (.jpV0Addr 0x123) := by decide

theorem test_decode_register_and_byte :
    decodeWord false 0b0011001101000010 = some (.seVxByte 3 0x42) ∧
    decodeWord false 0b0100001101000010 = some (.sneVxByte 3 0x42) ∧
    decodeWord false 0b0110101000000010 = some (.ldVxByte 0xA 0x02) ∧
    decodeWord false 0b0111000100000001 = some (.addVxByte 1 0x01) ∧
    decodeWord false 0b1100001100001111 = some (.rndVxByte 3 0x0F) := by decide

theorem test_decode_register_pairs :
    decodeWord false 0b0101000100100000 = some (.seVxVy 1 2 0) ∧
    decodeWord false 0b1001101010110111 = some (.sneVxVy 0xA 0xB 7) ∧
    decodeWord false 0b1101000000010101 = some (.drwVxVyNibble 0 1 5) := by decide

theorem test_decode_family_8 :
    decodeWord false 0b1000000100100000 = some (.ldVxVy 1 2) ∧
    decodeWord false 0b1000000100100001 = some (.orVxVy 1 2) ∧
    decodeWord false 0b1000000100100010 = some (.andVxVy 1 2) ∧
    decodeWord false 0b1000000100100011 = some (.xorVxVy 1 2) ∧
    decodeWord false 0b1000000100100100 = some (.addVxVy 1 2) ∧
    decodeWord false 0b1000000100100101 = some (.subVxVy 1 2) ∧
    decodeWord false 0b1000000100100110 = some (.shrVx 1 2) ∧
    decodeWord false 0b1000000100100111 = some (.subnVxVy 1 2) ∧
    decodeWord false 0b1000000100101110 = some (.shlVx 1 2) := by decide

theorem test_decode_family_E :
    decodeWord false 0b1110001010011110 = some (.skpVx 2) ∧
    decodeWord false 0b1110001010100001 = some (.sknpVx 2) := by decide

theorem test_decode_family_F :
    decodeWord false 0b1111000100000111 = some (.ldVxDt 1) ∧
    decodeWord false 0b1111101000001010 = some (.ldVxK 0xA) ∧
    decodeWord false 0b1111000000010101 = some (.ldDtVx 0) ∧
    decodeWord false 0b1111000000011000 = some (.ldStVx 0) ∧
    decodeWord false 0b1111000000011110 = some (.addIVx 0) ∧
    decodeWord false 0b1111010100101001 = some (.ldFVx 5) ∧
    decodeWord false 0b1111000000110011 = some (.ldBVx 0) ∧
    decodeWord false 0b1111001001010101 = some (.ldMemVx 2) ∧
    decodeWord false 0b1111000101100101 = some (.ldVxMem 1) := by decide

/-- 95_test_vectors.md §2.1: unsupported words. -/
theorem test_decode_unsupported :
    [0x0000#16, 0x00E1#16, 0x00FF#16, 0x0123#16, 0x0FFF#16, 0x8008#16, 0x8009#16, 0x800A#16, 0x800B#16, 0x800C#16,
      0x800D#16, 0x800F#16, 0xE09F#16, 0xE0A0#16, 0xE000#16, 0xF000#16, 0xF008#16, 0xF0FF#16, 0xF066#16].all
      (fun op => decodeWord false op == none) = true := by decide

/-- 95_test_vectors.md §2.1: 5XYn and 9XYn under `STRICT_5_9`. -/
theorem test_decode_strict :
    decodeWord true 0x5121 = none ∧ decodeWord true 0x9AB7 = none ∧ decodeWord true 0x5120 = some (.seVxVy 1 2 0) := by
  decide

/-- 20_memory.md R47 and 30_encoding.md R71: the high byte first, and the bytes after the word are left. -/
theorem test_decode_bytes :
    decode false [0x6A, 0x02, 0x00, 0xE0] = .ok (.ldVxByte 0xA 0x02, [0x00, 0xE0]) ∧
    decode false [0x6A] = .error .truncated ∧ decode false [0x00, 0x00] = .error (.unsupported 0x0000) := by decide

theorem test_encode_bytes :
    encodeBytes (.callAddr 0x20E) = [0x22, 0x0E] ∧ encodeBytes (.addVxVy 0xA 0xB) = [0x8A, 0xB4] ∧
    encodeBytes (.ldMemVx 2) = [0xF2, 0x55] := by decide

theorem test_decode_table_word : decodeTableWord 16 0xF533 = some (.ldBVx 5) := by decide

/-! ### Control flow (95_test_vectors.md §2.2) -/

theorem test_ret_pops :
    nextIs (exec .ret { State.reset with sp := 1, stack := State.reset.stack.set 0 0x206, pc := 0x302 })
      (fun t => t.pc == 0x206 && t.sp == 0) = true := by decide

theorem test_ret_underflow :
    nextIs (exec .ret (at200 State.reset))
      (fun t => t.eng == haltAt200 0x00EE .stackUnderflow none && t.pc == 0x202 && t.sp == 0) = true := by decide

theorem test_jp_odd_target : nextIs (exec (.jpAddr 0x201) (at200 State.reset)) (fun t => t.pc == 0x201) = true := by
  decide

theorem test_call_pushes :
    nextIs (exec (.callAddr 0x300) (State.reset.setPc 0x204))
      (fun t => t.pc == 0x300 && t.sp == 1 && t.stack[0]? == some 0x204) = true := by decide

theorem test_call_overflow :
    nextIs (exec (.callAddr 0x300) { State.reset with sp := 16, pc := 0x202 })
      (fun t => t.eng == haltAt200 0x2300 .stackOverflow none && t.sp == 16 && t.pc == 0x202) = true := by decide

theorem test_jp_v0_not_masked :
    nextIs (exec (.jpV0Addr 0xFFF) (withRegs [(0, 0xFF)])) (fun t => t.pc == 0x10FE) = true := by decide

theorem test_se_byte :
    nextIs (exec (.seVxByte 3 0x42) (at200 (withRegs [(3, 0x42)]))) (fun t => t.pc == 0x204) = true ∧
    nextIs (exec (.seVxByte 3 0x43) (at200 (withRegs [(3, 0x42)]))) (fun t => t.pc == 0x202) = true := by decide

theorem test_sne_byte :
    nextIs (exec (.sneVxByte 3 0x42) (at200 (withRegs [(3, 0x42)]))) (fun t => t.pc == 0x202) = true ∧
    nextIs (exec (.sneVxByte 3 0x42) (at200 State.reset)) (fun t => t.pc == 0x204) = true := by decide

theorem test_se_registers :
    nextIs (exec (.seVxVy 1 2 0) (at200 (withRegs [(1, 9), (2, 9)]))) (fun t => t.pc == 0x204) = true := by decide

theorem test_sne_registers :
    nextIs (exec (.sneVxVy 1 2 0) (at200 (withRegs [(1, 1), (2, 2)]))) (fun t => t.pc == 0x204) = true := by decide

/-! ### Arithmetic and logic (95_test_vectors.md §2.3) -/

theorem test_ld_byte :
    nextIs (exec (.ldVxByte 1 0xAB) (withRegs [(0xF, 0x55)])) (fun t => t.getV 1 == 0xAB && t.getV 0xF == 0x55) = true := by
  decide

theorem test_add_byte_no_carry :
    nextIs (exec (.addVxByte 1 0x01) (withRegs [(1, 0xFF), (0xF, 0x55)]))
      (fun t => t.getV 1 == 0x00 && t.getV 0xF == 0x55) = true := by decide

theorem test_ld_register :
    nextIs (exec (.ldVxVy 1 2) (withRegs [(2, 0x9C)])) (fun t => t.getV 1 == 0x9C) = true := by decide

theorem test_or :
    nextIs (exec (.orVxVy 1 2) (withRegs [(1, 0x0F), (2, 0xF0), (0xF, 0x55)]))
      (fun t => t.getV 1 == 0xFF && t.getV 0xF == 0x55) = true := by decide

theorem test_and :
    nextIs (exec (.andVxVy 1 2) (withRegs [(1, 0x3C), (2, 0x0F), (0xF, 0x55)]))
      (fun t => t.getV 1 == 0x0C && t.getV 0xF == 0x55) = true := by decide

theorem test_xor :
    nextIs (exec (.xorVxVy 1 2) (withRegs [(1, 0x3C), (2, 0x0F), (0xF, 0x55)]))
      (fun t => t.getV 1 == 0x33 && t.getV 0xF == 0x55) = true := by decide

theorem test_add_carry :
    nextIs (exec (.addVxVy 1 2) (withRegs [(1, 0xFF), (2, 0x01), (0xF, 0x55)]))
      (fun t => t.getV 1 == 0x00 && t.getV 0xF == 0x01) = true := by decide

theorem test_add_into_vf :
    nextIs (exec (.addVxVy 0xF 2) (withRegs [(0xF, 0xF0), (2, 0x20)])) (fun t => t.getV 0xF == 0x01) = true := by decide

theorem test_sub_borrow :
    nextIs (exec (.subVxVy 1 2) (withRegs [(1, 0x00), (2, 0xFF), (0xF, 0x55)]))
      (fun t => t.getV 1 == 0x01 && t.getV 0xF == 0x00) = true := by decide

theorem test_sub_vf_subtrahend :
    nextIs (exec (.subVxVy 1 0xF) (withRegs [(1, 0x10), (0xF, 0x20)]))
      (fun t => t.getV 1 == 0xF0 && t.getV 0xF == 0x00) = true := by decide

theorem test_subn :
    nextIs (exec (.subnVxVy 1 2) (withRegs [(1, 0x05), (2, 0x03)]))
      (fun t => t.getV 1 == 0xFE && t.getV 0xF == 0x00) = true ∧
    nextIs (exec (.subnVxVy 1 2) (withRegs [(1, 0x03), (2, 0x05)]))
      (fun t => t.getV 1 == 0x02 && t.getV 0xF == 0x01) = true := by decide

theorem test_shr_ignores_y :
    nextIs (exec (.shrVx 1 2) (withRegs [(1, 0x04), (2, 0xFF)]))
      (fun t => t.getV 1 == 0x02 && t.getV 0xF == 0x00 && t.getV 2 == 0xFF) = true := by decide

theorem test_shr_into_vf :
    nextIs (exec (.shrVx 0xF 0xF) (withRegs [(0xF, 0x03)])) (fun t => t.getV 0xF == 0x01) = true := by decide

theorem test_shl :
    nextIs (exec (.shlVx 1 2) (withRegs [(1, 0xFF)])) (fun t => t.getV 1 == 0xFE && t.getV 0xF == 0x01) = true ∧
    nextIs (exec (.shlVx 0xF 0xF) (withRegs [(0xF, 0x40)])) (fun t => t.getV 0xF == 0x00) = true := by decide

/-- The draw itself is a free value, so the test gives it. -/
theorem test_rnd_masks_the_draw :
    (State.reset.setMaskedDraw 3 0x0F 0xB7).getV 3 = 0x07 ∧ (State.reset.setMaskedDraw 3 0xFF 0x5A).getV 3 = 0x5A := by
  decide

/-! ### Index register and memory (95_test_vectors.md §2.4) -/

theorem test_ld_i : nextIs (exec (.ldIAddr 0xFFF) State.reset) (fun t => t.i == 0xFFF) = true := by decide

theorem test_add_i_not_clamped :
    nextIs (exec (.addIVx 0) ((withRegs [(0, 0x03), (0xF, 0x55)]).setI 0x0FFE))
      (fun t => t.i == 0x1001 && t.getV 0xF == 0x55) = true ∧
    nextIs (exec (.addIVx 0) ((withRegs [(0, 0x02)]).setI 0xFFFF)) (fun t => t.i == 0x0001) = true := by decide

theorem test_ld_f :
    nextIs (exec (.ldFVx 5) (withRegs [(5, 0x0A)])) (fun t => t.i == 0x032) = true ∧
    nextIs (exec (.ldFVx 0) (withRegs [(0, 0xFF)])) (fun t => t.i == 0x4FB) = true := by decide

theorem test_ld_f_masked :
    nextIs (exec (.ldFVx 0) (withCfg (fun c => { c with fontIndexMask := true }) (withRegs [(0, 0xFF)])))
      (fun t => t.i == 0x04B) = true := by decide

theorem test_bcd_234 :
    nextIs (exec (.ldBVx 0) ((withRegs [(0, 234)]).setI 0x300))
      (fun t => t.byteAt 0x300 == 2 && t.byteAt 0x301 == 3 && t.byteAt 0x302 == 4 && t.i == 0x300) = true := by decide

theorem test_bcd_halts_midway :
    nextIs (exec (.ldBVx 0) (at200 ((withRegs [(0, 123)]).setI 0xFFE)))
      (fun t => t.byteAt 0xFFE == 1 && t.byteAt 0xFFF == 2 &&
        t.eng == haltAt200 0xF033 .memoryOutOfRange (some 0x1000)) = true := by decide

theorem test_store_registers :
    nextIs (exec (.ldMemVx 2) ((withRegs [(0, 1), (1, 2), (2, 3)]).setI 0x300))
      (fun t => t.byteAt 0x300 == 1 && t.byteAt 0x301 == 2 && t.byteAt 0x302 == 3 && t.byteAt 0x303 == 0 &&
        t.i == 0x303) = true := by decide

theorem test_store_registers_halts_midway :
    nextIs (exec (.ldMemVx 2) (at200 ((withRegs [(0, 1), (1, 2), (2, 3)]).setI 0xFFE)))
      (fun t => t.byteAt 0xFFE == 1 && t.byteAt 0xFFF == 2 && t.i == 0xFFE &&
        t.eng == haltAt200 0xF255 .memoryOutOfRange (some 0x1000)) = true := by decide

theorem test_load_registers :
    nextIs (exec (.ldVxMem 1) ((withBytes 0x300 [0x0A, 0x0B] State.reset).setI 0x300))
      (fun t => t.getV 0 == 0x0A && t.getV 1 == 0x0B && t.getV 2 == 0 && t.i == 0x302) = true := by decide

theorem test_load_registers_halts :
    nextIs (exec (.ldVxMem 0) (at200 (State.reset.setI 0x1000)))
      (fun t => t.getV 0 == 0 && t.i == 0x1000 && t.eng == haltAt200 0xF065 .memoryOutOfRange (some 0x1000)) = true := by
  decide

/-- 10_state.md R37: the glyph of the digit 1, at 5. -/
theorem test_glyph_bytes :
    [State.reset.byteAt 5, State.reset.byteAt 6, State.reset.byteAt 7, State.reset.byteAt 8, State.reset.byteAt 9,
      State.reset.byteAt 79, State.reset.byteAt 80] = [0x20, 0x60, 0x20, 0x20, 0x70, 0x80, 0x00] := by decide

/-- A write of what an unlisted address reads as removes the cell. -/
theorem test_memory_canonical :
    (withBytes 0x300 [0] (withBytes 0x300 [7] State.reset)).mem = [] ∧
    (withBytes 0x2FF [9] (withBytes 0x300 [7] State.reset)).mem = [(0x2FF, 9), (0x300, 7)] := by decide

/-! ### Timers and keys (95_test_vectors.md §2.5) -/

theorem test_ld_dt : nextIs (exec (.ldDtVx 0) (withRegs [(0, 0x3C)])) (fun t => t.dt == 0x3C) = true := by decide

theorem test_ld_st_no_sound :
    nextIs (exec (.ldStVx 0) (withRegs [(0, 0x02)])) (fun t => t.st == 0x02 && !t.soundOn) = true := by decide

theorem test_ld_vx_dt : nextIs (exec (.ldVxDt 1) (State.reset.setDt 9)) (fun t => t.getV 1 == 9) = true := by decide

theorem test_skp :
    nextIs (exec (.skpVx 2) (at200 ((withRegs [(2, 4)]).handleEvent (.keyDown 4)))) (fun t => t.pc == 0x204) = true ∧
    nextIs (exec (.skpVx 2) (at200 (withRegs [(2, 4)]))) (fun t => t.pc == 0x202) = true := by decide

theorem test_skp_key_out_of_range :
    nextIs (exec (.skpVx 2) (at200 (withRegs [(2, 0x10)])))
      (fun t => t.eng == haltAt200 0xE29E .keyIndexOutOfRange (some 0x10) && t.pc == 0x202) = true ∧
    nextIs (exec (.skpVx 2) (at200 (withCfg (fun c => { c with keyIndexPolicy := .mask })
      ((withRegs [(2, 0x10)]).handleEvent (.keyDown 0))))) (fun t => t.pc == 0x204) = true := by decide

theorem test_sknp :
    nextIs (exec (.sknpVx 2) (at200 (withRegs [(2, 4)]))) (fun t => t.pc == 0x204) = true ∧
    nextIs (exec (.sknpVx 2) (at200 ((withRegs [(2, 4)]).handleEvent (.keyDown 4)))) (fun t => t.pc == 0x202) = true := by
  decide

theorem test_sknp_not_pressed_policy :
    nextIs (exec (.sknpVx 2) (at200 (withCfg (fun c => { c with keyIndexPolicy := .notPressed })
      (withRegs [(2, 0x10)])))) (fun t => t.pc == 0x204) = true := by decide

theorem test_key_events :
    (State.reset.handleEvent (.keyDown 7)).keysDown = 0x0080 ∧ (State.reset.handleEvent (.keyDown 7)).lastKey = some 7 ∧
    ((State.reset.handleEvent (.keyDown 7)).handleEvent (.keyUp 7)).keysDown = 0 ∧
    ((State.reset.handleEvent (.keyDown 7)).handleEvent (.keyUp 7)).lastKey = some 7 := by decide

theorem test_ld_k :
    nextIs (exec (.ldVxK 0xA) (at200 (withRegs [(0xA, 0x33)])))
      (fun t => t.eng == .waitingForKey 0xA && t.getV 0xA == 0x33 && t.pc == 0x202) = true := by decide

theorem test_resume :
    (({ State.reset with lastKey := some 7 } : State).resumeAttempt 0xA).getV 0xA = 7 ∧
    (({ State.reset with lastKey := some 7 } : State).resumeAttempt 0xA).lastKey = none ∧
    ((State.reset.setEng (.waitingForKey 0xA)).resumeAttempt 0xA).eng = .waitingForKey 0xA := by decide

theorem test_tick_timers :
    ((State.reset.setDt 1).setSt 1).tickTimers.dt = 0 ∧ ((State.reset.setDt 1).setSt 1).tickTimers.st = 0 ∧
    ((State.reset.setDt 1).setSt 1).tickTimers.soundOn = true ∧
    (State.reset.setDt 0xFF).tickTimers.dt = 0xFE ∧ (State.reset.setDt 0xFF).tickTimers.soundOn = false := by decide

/-! ### Display (95_test_vectors.md §2.6) -/

theorem test_cls :
    nextIs (exec .cls (State.reset.setPixel 63 31).1) (fun t => !t.pixel 63 31) = true := by decide

theorem test_drw_wraps_right :
    nextIs (exec (.drwVxVyNibble 0 1 1) ((withBytes 0x300 [0xC0] (withRegs [(0, 0x3F), (1, 0x1F)])).setI 0x300))
      (fun t => t.pixel 63 31 && t.pixel 0 31 && !t.pixel 1 31 && t.getV 0xF == 0) = true := by decide

theorem test_drw_collision :
    nextIs (exec (.drwVxVyNibble 0 1 1) ((withBytes 0x300 [0x80] (State.reset.setPixel 0 0).1).setI 0x300))
      (fun t => !t.pixel 0 0 && t.getV 0xF == 1) = true := by decide

theorem test_drw_vf_coordinate :
    nextIs (exec (.drwVxVyNibble 0xF 1 1) ((withBytes 0x300 [0x80] (withRegs [(0xF, 5)])).setI 0x300))
      (fun t => t.pixel 0 0 && !t.pixel 5 0) = true ∧
    nextIs (exec (.drwVxVyNibble 0xF 1 1) (withCfg (fun c => { c with drawVfClearFirst := false })
      ((withBytes 0x300 [0x80] (withRegs [(0xF, 5)])).setI 0x300)))
      (fun t => t.pixel 5 0 && !t.pixel 0 0) = true := by decide

theorem test_drw_halts_midway :
    nextIs (exec (.drwVxVyNibble 0 1 3) (at200 ((withBytes 0xFFE [0x80, 0x80] State.reset).setI 0xFFE)))
      (fun t => t.pixel 0 0 && t.pixel 0 1 && !t.pixel 0 2 && t.getV 0xF == 0 &&
        t.eng == haltAt200 0xD013 .memoryOutOfRange (some 0x1000)) = true := by decide

/-! ### The instruction cycle, halts and the scheduler (95_test_vectors.md §2.1, §2.7) -/

theorem test_step_runs_the_word_at_pc :
    nextIs (step (State.reset.withFetchWord 16 0x6A02)) (fun t => t.getV 0xA == 2 && t.pc == 0x202 && t.batch == 1) =
      true := by decide

theorem test_step_empty_rom_halts :
    nextIs (step State.reset) (fun t => t.eng == haltAt200 0x0000 .unsupportedOpcode none && t.pc == 0x202 &&
      t.sched == .stopped) = true := by decide

theorem test_fetch_at_ffe :
    nextIs (State.stepCall ((State.reset.setPc 0xFFE).withFetchWord 16 0x00E0))
      (fun t => t.pc == 0x1000 && t.eng == .running) = true := by decide

theorem test_fetch_at_fff_halts :
    nextIs (State.stepCall (State.reset.setPc 0xFFF)) (fun t => t.pc == 0xFFF &&
      t.eng == .halted { cause := .fetchOutOfRange, opcode := none, addr := 0xFFF, faultAddr := none }) = true := by
  decide

theorem test_fetch_at_odd_pc :
    nextIs (State.stepCall ((State.reset.setPc 0x201).withFetchWord 16 0x1234)) (fun t => t.pc == 0x234) = true ∧
    nextIs (State.stepCall (withCfg (fun c => { c with oddPcHalts := true }) (State.reset.setPc 0x201)))
      (fun t => t.pc == 0x201 &&
        t.eng == .halted { cause := .misalignedFetch, opcode := none, addr := 0x201, faultAddr := none }) = true := by
  decide

/-- A halt in the tick where `DT` is 3 leaves 2. -/
theorem test_halting_tick_counts_down :
    nextIs (step (State.reset.setDt 3)) (fun t => t.dt == 2 && t.sched == .stopped) = true := by decide

/-- 20_memory.md R55: a store over the next instruction is what the next fetch reads. -/
theorem test_self_modifying_store :
    nextIs (exec (.ldMemVx 1) (at200 ((withRegs [(0, 0x12), (1, 0x00)]).setI 0x202)))
      (fun t => t.i == 0x204 && nextIs t.stepCall (fun u => u.pc == 0x200)) = true := by decide

theorem test_last_call_of_a_tick :
    nextIs (step (({ State.reset with batch := 15, dt := 5, st := 1 } : State).withFetchWord 16 0x6A02))
      (fun t => t.batch == 0 && t.dt == 4 && t.st == 0 && t.soundOn && t.getV 0xA == 2) = true := by decide

theorem test_key_wait_takes_a_press :
    nextIs (step ({ State.reset with eng := .waitingForKey 0xA, inputs := [some (.keyDown 7), none] } : State))
      (fun t => t.getV 0xA == 7 && t.lastKey == none && t.eng == .running && t.pc == 0x200 && t.inputs == [none]) =
      true := by decide

theorem test_halt_codes :
    [HaltCause.unsupportedOpcode, .stackOverflow, .stackUnderflow, .memoryOutOfRange, .fetchOutOfRange,
      .misalignedFetch, .keyIndexOutOfRange].map HaltCause.code = [1, 2, 3, 4, 5, 6, 7] := by decide

/-- A load copies the ROM from its first byte (70_reset_and_hazards.md R147). -/
theorem test_load :
    (match load defaultConfig [] [0x6A, 0x02, 0x00, 0xE0, 0x12, 0x00] with
      | .ok s => s.byteAt 0x200 == 0x6A && s.byteAt 0x201 == 0x02 && s.byteAt 0x204 == 0x12 && s.byteAt 0x206 == 0
      | .error _ => false) = true := by decide

/-! ### Witnesses: concrete states and operands that meet the hypotheses of the statements -/

theorem witness_DecodeOfEncodeIsTheInstruction :
    Instr.wellFormed true (.seVxVy 1 2 0) = true ∧ Instr.wellFormed false (.seVxVy 1 2 0xF) = true := by decide

theorem witness_EncodeOfDecodeIsTheWord :
    decodeWord false 0x9AB7 = some (.sneVxVy 0xA 0xB 7) ∧ decodeWord true 0x00EE = some .ret := by decide

/-- One word of each clause of R69, at the ends of its range. -/
theorem witness_UnsupportedWordsAreTheListedOnesAndHalt :
    State.reset.cfg.strict59 = false ∧ UnsupportedWord false 0x0000 ∧ UnsupportedWord false 0x0FFF ∧
    UnsupportedWord false 0x8008 ∧ UnsupportedWord false 0x8FFF ∧ UnsupportedWord false 0xE09F ∧
    UnsupportedWord false 0xFFFF ∧ ¬ UnsupportedWord false 0x5001 ∧
    (withCfg (fun c => { c with strict59 := true }) State.reset).cfg.strict59 = true ∧
    UnsupportedWord true 0x5001 ∧ UnsupportedWord true 0x9FFF :=
  ⟨by decide, by decide, by decide, by decide, by decide, by decide, by decide, by decide, by decide, by decide,
    by decide⟩

/-- At the highest address a fetch allows, and at an even one under `ODD_PC_HALTS`. -/
theorem witness_StepRunsTheDecodedInstruction :
    let s := (State.reset.setPc 0xFFE).withFetchWord 16 0x6A02
    let u := withCfg (fun c => { c with oddPcHalts := true }) s
    (s.sched = .active ∧ s.eng = .running ∧ s.batch < s.cfg.batchSize ∧ s.pc.toNat ≤ 0xFFE ∧
      (s.cfg.oddPcHalts = true → s.pc.toNat % 2 = 0) ∧
      decodeWord s.cfg.strict59 (s.byteAt s.pc.toNat ++ s.byteAt (s.pc.toNat + 1)) = some (.ldVxByte 0xA 0x02)) ∧
    u.cfg.oddPcHalts = true ∧ u.pc.toNat % 2 = 0 := by decide

theorem witness_FetchHaltsInOrder :
    let s := withCfg (fun c => { c with oddPcHalts := true }) (State.reset.setPc 0xFFF)
    let u := State.reset.setPc 0xFFF
    (s.cfg.oddPcHalts = true ∧ s.pc.toNat % 2 = 1) ∧
    ¬ (u.cfg.oddPcHalts = true ∧ u.pc.toNat % 2 = 1) ∧ 0xFFE < u.pc.toNat := by decide

theorem witness_OnlyAStoppedSchedulerStops :
    State.reset.sched = .active ∧ ({ State.reset with sched := .stopped } : State).sched = .stopped := by decide

theorem witness_CallPushesOrOverflows :
    let s : State := { State.reset with sp := 15 }
    let u : State := { State.reset with sp := 16 }
    s.StackBounded ∧ s.sp < s.cfg.stackDepth ∧ u.StackBounded ∧ u.sp = u.cfg.stackDepth := by decide

theorem witness_ReturnPopsOrUnderflows :
    let s : State := { State.reset with sp := 1 }
    s.StackBounded ∧ 0 < s.sp ∧ State.reset.StackBounded ∧ State.reset.sp = 0 := by decide

/-- A subroutine that made a call of its own leaves another entry above `SP`. -/
theorem witness_ReturnUndoesCall :
    State.reset.StackBounded ∧ State.reset.sp < State.reset.cfg.stackDepth ∧
    ∃ t, exec (.callAddr 0x300) State.reset = .next t ∧
      let u : State := { t with stack := t.stack.set 1 0x302 }
      u.sp = t.sp ∧ u.stack ≠ t.stack ∧ ∀ k, k < t.sp → u.stack[k]? = t.stack[k]? :=
  ⟨by decide, by decide, _, rfl, rfl, by decide, by decide⟩

/-- An instruction of each kind, and stacks in bounds that are empty, part full and full. -/
theorem witness_HowEachInstructionLeavesPc :
    (∃ t, exec (.skpVx 2) State.reset = .next t) ∧
    (let s : State := { State.reset with sp := 1 }
     s.StackBounded ∧ s.sp ≠ 0 ∧ s.sp < s.cfg.stackDepth ∧ (∃ t, exec .ret s = .next t) ∧
       ∃ t, exec (.callAddr 0x300) s = .next t) ∧
    (State.reset.StackBounded ∧ State.reset.sp = 0) ∧
    let s : State := { State.reset with sp := 16 }
    s.StackBounded ∧ ¬ s.sp < s.cfg.stackDepth :=
  ⟨⟨_, rfl⟩, ⟨by decide, by decide, by decide, ⟨_, rfl⟩, ⟨_, rfl⟩⟩, by decide, by decide⟩

theorem witness_ArithmeticWrapsModulo256 : (1 : Reg) ≠ vf := by decide

theorem witness_AddSetsSumThenCarry : (0xE : Reg) ≠ vf := by decide

theorem witness_SubtractionsSetDifferenceThenNoBorrow : (0 : Reg) ≠ vf := by decide

theorem witness_ShiftsSetResultThenBitShiftedOut : (7 : Reg) ≠ vf := by decide

theorem witness_RandomWritesAMaskedFreeDraw : (0x0F : Byte).getLsbD 4 = false := by decide

theorem witness_OnlyTheTablesRegistersAreWritten :
    ∃ t, exec (.ldVxByte 1 0xAB) State.reset = .next t ∧ (2 : Reg) ∉ writtenRegs (.ldVxByte 1 0xAB) :=
  ⟨_, rfl, by decide⟩

/-- The first and the last glyph, with the FX29 word itself in memory. -/
theorem witness_GlyphPointerFindsTheGlyph :
    let s := (withRegs [(5, 0)]).withFetchWord 16 0xF529
    let u := (withRegs [(5, 0xF)]).withFetchWord 16 0xF529
    (s.getV 5).toNat = (0 : Fin 16).val ∧
    (∀ r : Fin 5, s.byteAt (5 * (0 : Fin 16).val + r.val) = (s.cfg.glyphs[(0 : Fin 16).val])[r.val]) ∧
    (u.getV 5).toNat = (15 : Fin 16).val ∧
    (∀ r : Fin 5, u.byteAt (5 * (15 : Fin 16).val + r.val) = (u.cfg.glyphs[(15 : Fin 16).val])[r.val]) ∧
    decodeWord u.cfg.strict59 (u.byteAt 0x200 ++ u.byteAt 0x201) = some (.ldFVx 5) := by decide

theorem witness_MemoryReadsWhatWasWritten : 0xFFF ≤ 0xFFF ∧ 0xFFF < 0x1000 := by decide

theorem witness_BcdStoresThreeDigits : (State.reset.setI 0xFFD).dataAddr 2 ≤ 0xFFF := by decide

/-- Two bytes inside memory, and none. -/
theorem witness_BcdHaltsAtTheFirstByteOutOfRange :
    0xFFF < (State.reset.setI 0xFFE).dataAddr 2 ∧ 1 < 3 ∧ (State.reset.setI 0xFFE).dataAddr 1 ≤ 0xFFF ∧
    0xFFF < (State.reset.setI 0xFFFF).dataAddr 2 := by decide

theorem witness_BlockStoreWritesRegistersAndAdvancesI :
    (State.reset.setI 0xFF0).dataAddr (0xF : Reg).val ≤ 0xFFF ∧ (0xF : Reg) ≤ 0xF := by decide

theorem witness_BlockStoreHaltsAtTheFirstByteOutOfRange :
    0xFFF < (State.reset.setI 0xFF1).dataAddr (0xF : Reg).val ∧ (0xE : Reg) ≤ 0xF ∧
    (State.reset.setI 0xFF1).dataAddr (0xE : Reg).val ≤ 0xFFF ∧
    0xFFF < (State.reset.setI 0x1000).dataAddr (0 : Reg).val := by decide

theorem witness_BlockLoadReadsRegistersAndAdvancesI :
    (State.reset.setI 0xFFF).dataAddr (0 : Reg).val ≤ 0xFFF ∧ (0 : Reg) ≤ 0 ∧ (0 : Reg) < 1 := by decide

theorem witness_BlockLoadHaltsAtTheFirstByteOutOfRange :
    0xFFF < (State.reset.setI 0xFFF).dataAddr (1 : Reg).val ∧
    0xFFF < (State.reset.setI 0xFFFF).dataAddr (0xF : Reg).val := by decide

theorem witness_OnlyTheNamedWritersTouchMemoryDisplayAndIndex :
    writesMemory (.addIVx 1) = false ∧ writesDisplay (.addIVx 1) = false ∧ writesIndex (.ldBVx 1) = false ∧
    (∃ t, exec (.addIVx 1) State.reset = .next t) ∧ ∃ t, exec (.ldBVx 1) State.reset = .next t :=
  ⟨rfl, rfl, rfl, ⟨_, rfl⟩, ⟨_, rfl⟩⟩

/-- Another stack for an instruction that does not touch it, and one that differs only above `SP`. -/
theorem witness_StackIsPrivateToCallAndReturn :
    touchesStack (.ldVxMem 3) = false ∧ touchesStack .ret = true ∧
    (State.reset.stack.set 0 0x206).length = State.reset.stack.length ∧
    ∀ k, k < State.reset.sp → (State.reset.stack.set 0 0x206)[k]? = State.reset.stack[k]? :=
  ⟨rfl, rfl, rfl, fun _ h => absurd h (Nat.not_lt_zero _)⟩

theorem witness_InstructionsLeaveSchedulerKeyboardAndTimers :
    (∃ t, exec (.ldMemVx 1) State.reset = .next t) ∧ (∀ x, (Instr.ldMemVx 1) ≠ .ldDtVx x) ∧
    (∀ x, (Instr.ldMemVx 1) ≠ .ldStVx x) ∧ ∀ x nn, (Instr.ldMemVx 1) ≠ .rndVxByte x nn :=
  ⟨⟨_, rfl⟩, by decide, by decide, fun _ _ h => by cases h⟩

/-- No rows at any address, and fifteen rows that end at the top of memory. -/
theorem witness_DrawXorsTheSpriteAndReportsCollision :
    (0 : Nibble).toNat = 0 ∧ (State.reset.setI 0xFF1).dataAddr ((15 : Nibble).toNat - 1) ≤ 0xFFF := by decide

/-- The last row outside memory, and all of them. -/
theorem witness_DrawHaltsAtTheFirstRowOutOfRange :
    (15 : Nibble).toNat ≠ 0 ∧ 0xFFF < (State.reset.setI 0xFF2).dataAddr ((15 : Nibble).toNat - 1) ∧
    0xFFF < (State.reset.setI 0x1000).dataAddr ((1 : Nibble).toNat - 1) := by decide

/-- The sprite at 0 is the glyph of 0, on a clear screen; and VF as a coordinate that the first draw leaves alone. -/
theorem witness_DrawingTwiceRestoresTheScreen :
    (State.reset.cfg.drawVfClearFirst = true ∧ (0 : Reg) ≠ vf ∧ (1 : Reg) ≠ vf ∧
      State.reset.dataAddr ((5 : Nibble).toNat - 1) ≤ 0xFFF ∧ State.reset.byteAt (State.reset.dataAddr 0) ≠ 0 ∧
      ∀ px py, State.reset.pixel px py = false) ∧
    let s := withCfg (fun c => { c with drawVfClearFirst := false }) State.reset
    s.cfg.drawVfClearFirst = false ∧ ∃ t, exec (.drwVxVyNibble vf vf 0) s = .next t ∧ t.coordOf vf = s.coordOf vf :=
  ⟨⟨by decide, by decide, by decide, by decide, by decide, fun px py => by
    simp [State.pixel, State.reset, State.initial]⟩, by decide, _, rfl, by decide⟩

/-- A key value at the end of its range, and one past it under the two policies that go on. -/
theorem witness_KeySkipsFollowTheHeldKey :
    ((withRegs [(2, 15)]).getV 2).toNat ≤ 15 ∧
    (let s := withCfg (fun c => { c with keyIndexPolicy := .mask }) (withRegs [(2, 16)])
     15 < (s.getV 2).toNat ∧ s.cfg.keyIndexPolicy = .mask ∧ s.cfg.keyIndexPolicy ≠ .halt) ∧
    (let s := withCfg (fun c => { c with keyIndexPolicy := .notPressed }) (withRegs [(2, 16)])
     15 < (s.getV 2).toNat ∧ s.cfg.keyIndexPolicy = .notPressed ∧ s.cfg.keyIndexPolicy ≠ .halt) := by decide

theorem witness_KeySkipsHaltOnAKeyOutOfRange :
    15 < ((withRegs [(2, 16)]).getV 2).toNat ∧ (withRegs [(2, 16)]).cfg.keyIndexPolicy = .halt := by decide

theorem witness_WaitForKeySuspendsAndResumes :
    (State.reset.handleEvent (.keyDown 7)).lastKey = some 7 ∧ State.reset.lastKey = none := by decide

theorem witness_StepsAddUpToTheTick :
    State.reset.sched = .active ∧ State.reset.batch = 0 ∧ 0 < State.reset.cfg.batchSize ∧
    State.reset.eng = .running := by decide

/-- The first call of a tick, on a load of DT, leaves the tick open. -/
theorem witness_TimersAreNotDecrementedInsideABatch :
    ∃ t, step (State.reset.withFetchWord 16 0xF015) = .next t ∧ t.batch ≠ 0 := ⟨_, rfl, by decide⟩

/-- The call that ends its tick halts, executes FX0A, or is the last of the batch. -/
theorem witness_HaltingStepTicksTimersAndStops :
    (State.reset.sched = .active ∧ State.reset.eng = .running ∧ State.reset.batch < State.reset.cfg.batchSize ∧
      ∃ u, State.reset.beginTick.stepCall = .next u ∧ u.eng ≠ .running ∧ u.eng.isHalted = true) ∧
    (∃ u, (State.reset.withFetchWord 16 0xFA0A).beginTick.stepCall = .next u ∧ u.eng = .waitingForKey 0xA ∧
      u.eng.isHalted = false) ∧
    let s : State := { State.reset.withFetchWord 16 0x6A02 with batch := 15 }
    s.batch < s.cfg.batchSize ∧ s.cfg.batchSize ≤ s.batch + 1 ∧
      ∃ u, s.beginTick.stepCall = .next u ∧ u.eng = .running :=
  ⟨⟨by decide, by decide, by decide, _, rfl, by decide, by decide⟩, ⟨_, rfl, by decide, by decide⟩, by decide, by decide,
    _, rfl, by decide⟩

/-- No step, and the one step that stops the scheduler. -/
theorem witness_HaltIsTerminal :
    let s := State.reset.setEng (haltAt200 0x0000 .unsupportedOpcode none)
    s.eng = haltAt200 0x0000 .unsupportedOpcode none ∧ core.run 0 s = .next s ∧ ∃ t, core.run 1 s = .next t :=
  ⟨rfl, rfl, _, rfl⟩

theorem witness_EngineMakesOnlyTheSpecsTransitions :
    (∃ s, load defaultConfig [] [0xFA, 0x0A] = .ok s) ∧ State.reset.eng = .running ∧
    (∃ t, exec (.ldVxK 0xA) State.reset = .next t) ∧
    (∃ t, step (State.reset.withFetchWord 16 0xFA0A) = .next t ∧ t.eng = .waitingForKey 0xA) ∧
    (∃ t, step (State.reset.setEng (.waitingForKey 0xA)) = .next t) ∧
    ∃ t, step (State.reset.setEng (haltAt200 0x0000 .unsupportedOpcode none)) = .next t :=
  ⟨⟨_, rfl⟩, rfl, ⟨_, rfl⟩, ⟨_, rfl, by decide⟩, ⟨_, rfl⟩, ⟨_, rfl⟩⟩

/-- A wait that goes on, a wait that ends, and a halt. -/
theorem witness_WaitingKeepsEverythingButTimers :
    (∃ t, step (State.reset.setEng (.waitingForKey 0xA)) = .next t ∧ t.eng = .waitingForKey 0xA) ∧
    (State.reset.setEng (.waitingForKey 0xA)).beginTick.lastKey = none ∧
    (∃ t, step ({ State.reset with eng := .waitingForKey 0xA, lastKey := some 7 } : State) = .next t ∧
      t.eng = .running) ∧
    ∃ t, step (State.reset.setEng (haltAt200 0x0000 .unsupportedOpcode none)) = .next t :=
  ⟨⟨_, rfl, by decide⟩, by decide, ⟨_, rfl, by decide⟩, ⟨_, rfl⟩⟩

/-- At the first step of a tick, with an event, with none and past the end of the inputs; inside a tick; and in a
waiting engine. -/
theorem witness_OneInputPerTickAndFixedParameters :
    (∃ t, step State.reset = .next t ∧ State.reset.batch = 0 ∧ State.reset.inputs = []) ∧
    (∃ t, step ({ State.reset with inputs := [some (.keyDown 7), none] } : State) = .next t ∧ t.lastKey = some 7 ∧
      t.isPressed 7 = true ∧ t.inputs = [none]) ∧
    (∃ t, step ({ State.reset with inputs := [none, some (.keyDown 7)] } : State) = .next t ∧ t.lastKey = none) ∧
    (∃ t, step ({ State.reset with batch := 3, inputs := [some (.keyDown 7)] } : State) = .next t ∧
      t.lastKey = none) ∧
    ∃ t, step ({ State.reset with eng := .waitingForKey 0xA, inputs := [some (.keyDown 7)] } : State) = .next t ∧
      t.isPressed 7 = true ∧ t.lastKey = none :=
  ⟨⟨_, rfl, rfl, rfl⟩, ⟨_, rfl, by decide, by decide, by decide⟩, ⟨_, rfl, by decide⟩, ⟨_, rfl, by decide⟩, _, rfl,
    by decide, by decide⟩

/-- A load whose first word is an instruction, and one whose first word is unsupported. -/
theorem witness_LoadCopiesGlyphsAndStartsAt200 :
    0 < defaultConfig.batchSize ∧
    (∃ s, load defaultConfig [some (.keyDown 7)] [0x12, 0x00] = .ok s ∧
      decodeWord defaultConfig.strict59 (s.byteAt 0x200 ++ s.byteAt 0x201) = some (.jpAddr 0x200)) ∧
    ∃ s, load defaultConfig [] [] = .ok s ∧
      decodeWord defaultConfig.strict59 (s.byteAt 0x200 ++ s.byteAt 0x201) = none :=
  ⟨by decide, ⟨_, rfl, by decide⟩, _, rfl, by decide⟩

/-- The longest ROM that loads, and the shortest that does not. -/
theorem witness_LoadCopiesTheRomVerbatimOrFails :
    (List.replicate 3584 (0xFF : Byte)).length ≤ 3584 ∧ 3584 < (List.replicate 3585 (0xFF : Byte)).length := by
  simp only [List.length_replicate]; decide

theorem witness_LoadMeetsTheInvariant : ∃ s, load defaultConfig [] [] = .ok s := ⟨_, rfl⟩

theorem witness_EveryStepKeepsTheInvariant :
    (State.reset.setPc 0x10FE).Inv ∧ ∃ t, step (State.reset.setPc 0x10FE) = .next t := by
  refine ⟨⟨by decide, by decide, by decide, by decide, by decide, fun w h => ?_⟩, _, rfl⟩
  cases List.eq_of_mem_replicate h
  decide

end Sys2Proof.Tests
end

section
/-! PROOF. 10_state.md R26: the call stack and `SP` are out of reach of every instruction but 2NNN and 00EE. Replacing
them commutes with each shared operation, hence with the meaning of every other instruction. -/

namespace Sys2Proof.Machine

/-! ### Another call stack -/

/-- The state with another call stack and another `SP`. -/
def State.withStack (s : State) (stack : List Word) (sp : Nat) : State := { s with stack := stack, sp := sp }

section
variable (stack : List Word) (sp : Nat)

theorem State.getV_withStack (s : State) : (s.withStack stack sp).getV = s.getV := rfl

theorem State.setV_withStack (s : State) (r : Reg) (b : Byte) :
    (s.withStack stack sp).setV r b = (s.setV r b).withStack stack sp := rfl

theorem State.dataAddr_withStack (s : State) : (s.withStack stack sp).dataAddr = s.dataAddr := rfl

theorem State.memRead_withStack (s : State) : (s.withStack stack sp).memRead = s.memRead := rfl

theorem State.keyQuery_withStack (s : State) : (s.withStack stack sp).keyQuery = s.keyQuery := rfl

theorem State.drawCoord_withStack (s : State) : (s.withStack stack sp).drawCoord = s.drawCoord := by
  funext r
  rw [State.drawCoord_eq, State.drawCoord_eq]
  rfl

theorem State.skipIf_withStack (s : State) (c : Bool) :
    (s.withStack stack sp).skipIf c = (s.skipIf c).withStack stack sp := by
  cases c <;> rfl

theorem State.memWrite_withStack (s : State) (a : Nat) (b : Byte) :
    (s.withStack stack sp).memWrite a b = (s.memWrite a b).map (·.withStack stack sp) := by
  unfold State.memWrite
  split <;> rfl

theorem State.storeBytes_withStack (bs : List Byte) (a : Nat) (s : State) :
    State.storeBytes a bs (s.withStack stack sp) =
      (State.storeBytes a bs s).map (·.withStack stack sp) id := by
  induction bs generalizing a s with
  | nil => rfl
  | cons b bs ih =>
    simp only [State.storeBytes, State.memWrite_withStack]
    cases s.memWrite a b with
    | none => rfl
    | some t => exact ih (a + 1) t

theorem State.loadRegs_withStack (rs : List Reg) (a : Nat) (s : State) :
    State.loadRegs a rs (s.withStack stack sp) =
      (State.loadRegs a rs s).map (·.withStack stack sp) id := by
  induction rs generalizing a s with
  | nil => rfl
  | cons r rs ih =>
    simp only [State.loadRegs, State.memRead_withStack]
    cases s.memRead a with
    | none => rfl
    | some b => exact ih (a + 1) (s.setV r b)

theorem drawColumns_withStack (x0 : Nat) (y : Fin 32) (b : Byte) (cols : List (Fin 8)) (s : State) (c : Bool) :
    drawColumns x0 y b cols (s.withStack stack sp, c) =
      (drawColumns x0 y b cols (s, c)).map (·.withStack stack sp) id := by
  induction cols generalizing s c with
  | nil => rfl
  | cons col cols ih =>
    simp only [drawColumns]
    split
    · exact ih (s.setPixel (screenCol (x0 + col.val)) y).1 _
    · exact ih s c

theorem drawRows_withStack (base x0 y0 k r : Nat) (s : State) (c : Bool) :
    drawRows base x0 y0 k r (s.withStack stack sp, c) =
      (drawRows base x0 y0 k r (s, c)).map (Prod.map (·.withStack stack sp) id) id := by
  induction k generalizing r s c with
  | zero => rfl
  | succ k ih =>
    simp only [drawRows, State.memRead_withStack, drawColumns_withStack]
    cases s.memRead (base + r) with
    | none => rfl
    | some b => exact ih (r + 1) _ _

/-- An instruction other than 2NNN and 00EE does the same to everything but the call stack and `SP`, whatever they
hold. -/
theorem exec_withStack {i : Instr} (hi : touchesStack i = false) (s : State) :
    ∃ t, exec i s = .next t ∧ exec i (s.withStack stack sp) = .next (t.withStack stack sp) := by
  cases i with
  | ret | callAddr _ => cases hi
  | cls | jpAddr _ | jpV0Addr _ | ldIAddr _ | addIVx _ | ldFVx _ => exact ⟨_, rfl, rfl⟩
  | ldVxByte _ _ | addVxByte _ _ | ldVxVy _ _ | orVxVy _ _ | andVxVy _ _ | xorVxVy _ _ => exact ⟨_, rfl, rfl⟩
  | addVxVy _ _ | subVxVy _ _ | shrVx _ _ | subnVxVy _ _ | shlVx _ _ | rndVxByte _ _ => exact ⟨_, rfl, rfl⟩
  | ldVxDt _ | ldVxK _ | ldDtVx _ | ldStVx _ => exact ⟨_, rfl, rfl⟩
  | seVxByte _ _ | sneVxByte _ _ | seVxVy _ _ _ | sneVxVy _ _ _ =>
    exact ⟨_, rfl, congrArg Host.Outcome.next (s.skipIf_withStack stack sp _)⟩
  | skpVx x | sknpVx x =>
    simp only [exec, execSkpVx, execSknpVx, State.getV_withStack, State.keyQuery_withStack]
    cases s.keyQuery (s.getV x) with
    | none => exact ⟨_, rfl, rfl⟩
    | some p => exact ⟨_, rfl, congrArg Host.Outcome.next (s.skipIf_withStack stack sp _)⟩
  | ldBVx x | ldMemVx x =>
    simp only [exec, execLdBVx, execLdMemVx, State.getV_withStack, State.dataAddr_withStack,
      State.storeBytes_withStack]
    generalize State.storeBytes _ _ s = r
    obtain ⟨t, _ | a⟩ := r <;> exact ⟨_, rfl, rfl⟩
  | ldVxMem x =>
    simp only [exec, execLdVxMem, State.dataAddr_withStack, State.loadRegs_withStack]
    generalize State.loadRegs _ _ s = r
    obtain ⟨t, _ | a⟩ := r <;> exact ⟨_, rfl, rfl⟩
  | drwVxVyNibble x y n =>
    simp only [exec, execDrwVxVyNibble, State.dataAddr_withStack, State.drawCoord_withStack,
      State.setV_withStack, drawRows_withStack]
    generalize drawRows _ _ _ _ _ (s.setV vf 0, false) = r
    obtain ⟨⟨t, c⟩, _ | a⟩ := r
    · cases c <;> exact ⟨_, rfl, rfl⟩
    · exact ⟨_, rfl, rfl⟩

end

/-! ### Entries that are not held -/

/-- `u` differs from `t` at most in the entries of the call stack at `SP` and above. -/
def State.SameHeld (t u : State) : Prop :=
  u = { t with stack := u.stack } ∧ ∀ k, k < t.sp → u.stack[k]? = t.stack[k]?

/-- Stacks of one length that agree below `n` agree below `n + 1` once the same entry is stored at `n`. -/
theorem getElem?_set_congr {xs ys : List Word} {n : Nat} (w : Word) (hlen : xs.length = ys.length)
    (h : ∀ k, k < n → xs[k]? = ys[k]?) (k : Nat) (hk : k < n + 1) : (xs.set n w)[k]? = (ys.set n w)[k]? := by
  rcases Nat.lt_succ_iff_lt_or_eq.mp hk with hlt | rfl
  · rw [List.getElem?_set_ne (Nat.ne_of_gt hlt), List.getElem?_set_ne (Nat.ne_of_gt hlt), h k hlt]
  · simp [List.getElem?_set, hlen]

/-- 00EE reads the entry below `SP` and no other. -/
theorem execRet_sameHeld (s : State) {stack : List Word} (h : ∀ k, k < s.sp → stack[k]? = s.stack[k]?) :
    ∃ t u, exec .ret s = .next t ∧ exec .ret (s.withStack stack s.sp) = .next u ∧ t.SameHeld u := by
  simp only [exec, execRet]
  rcases s.pop_cases with ⟨k, hk, e⟩ | ⟨hz, e⟩
  · have hread : stack.getD k 0 = s.stack.getD k 0 := by
      simp only [List.getD_eq_getElem?_getD, h k (by omega)]
    have hpop : (s.withStack stack s.sp).pop = some (s.stack.getD k 0, s.withStack stack k) := by
      rw [← hread]; simp only [State.pop, State.withStack, hk]
    rw [e, hpop]
    exact ⟨_, _, rfl, rfl, rfl, fun j hj => h j (hk ▸ Nat.lt_succ_of_lt hj)⟩
  · have hpop : (s.withStack stack s.sp).pop = none := by simp only [State.pop, State.withStack, hz]
    rw [e, hpop]
    exact ⟨_, _, rfl, rfl, rfl, h⟩

/-- 2NNN stores at `SP`, whatever entry stood there. -/
theorem execCallAddr_sameHeld (nnn : Addr) (s : State) {stack : List Word} (hlen : stack.length = s.stack.length)
    (h : ∀ k, k < s.sp → stack[k]? = s.stack[k]?) :
    ∃ t u, exec (.callAddr nnn) s = .next t ∧ exec (.callAddr nnn) (s.withStack stack s.sp) = .next u ∧
      t.SameHeld u := by
  have hpc : (s.withStack stack s.sp).pc = s.pc := rfl
  simp only [exec, execCallAddr, hpc]
  rcases s.push_cases s.pc with ⟨hlt, e⟩ | ⟨hge, e⟩
  · have hpush : (s.withStack stack s.sp).push s.pc = some (s.withStack (stack.set s.sp s.pc) (s.sp + 1)) := if_pos hlt
    rw [e, hpush]
    exact ⟨_, _, rfl, rfl, rfl, getElem?_set_congr s.pc hlen h⟩
  · have hpush : (s.withStack stack s.sp).push s.pc = none := if_neg hge
    rw [e, hpush]
    exact ⟨_, _, rfl, rfl, rfl, h⟩

/-- No instruction observes an entry at `SP` or above. -/
theorem exec_sameHeld (i : Instr) (s : State) {stack : List Word} (hlen : stack.length = s.stack.length)
    (h : ∀ k, k < s.sp → stack[k]? = s.stack[k]?) :
    ∃ t u, exec i s = .next t ∧ exec i (s.withStack stack s.sp) = .next u ∧ t.SameHeld u := by
  cases hi : touchesStack i with
  | false =>
    obtain ⟨t, ht, hu⟩ := exec_withStack stack s.sp hi s
    obtain ⟨hstack, hsp⟩ := (exec_frame ht).stack hi
    refine ⟨t, _, ht, hu, ?_, fun k hk => ?_⟩
    · rw [← hsp]; rfl
    · rw [hstack]; exact h k (hsp ▸ hk)
  | true =>
    cases i with
    | ret => exact execRet_sameHeld s h
    | callAddr nnn => exact execCallAddr_sameHeld nnn s hlen h
    | _ => cases hi

/-- Settles O37: the call stack commutes with every instruction but 2NNN and 00EE, and those two reach no entry above
the ones held. -/
theorem stackIsPrivateToCallAndReturn : Obligations.StackIsPrivateToCallAndReturn := by
  refine ⟨fun i s stack sp hi => ?_, fun i s stack hlen h => ?_⟩
  · obtain ⟨t, ht, hu⟩ := exec_withStack stack sp hi s
    obtain ⟨hstack, hsp⟩ := (exec_frame ht).stack hi
    exact ⟨t, ht, hstack, hsp, hu⟩
  · obtain ⟨t, u, ht, hu, hframe, hheld⟩ := exec_sameHeld i s hlen h
    exact ⟨t, u, ht, hu, hframe, hheld⟩

end Sys2Proof.Machine
end

section
/-! PROOF. 10_state.md R21: how each instruction leaves `PC`. -/

namespace Sys2Proof.Machine

theorem State.skipIf_pc (s : State) (c : Bool) : (s.skipIf c).pc = if c then s.pc + 2 else s.pc := by
  rw [State.skipIf_eq, State.setPc_pc]

/-- The sum of BNNN is below 2^16. -/
theorem zextAddr_add_zextByte_toNat (nnn : Addr) (b : Byte) :
    (zextAddr nnn + zextByte b).toNat = nnn.toNat + b.toNat := by
  rw [BitVec.toNat_add, zextAddr_toNat, zextByte_toNat]
  omega

theorem execCallAddr_pc {nnn : Addr} {s t : State} (h : exec (.callAddr nnn) s = .next t) :
    t.pc.toNat = if s.sp < s.cfg.stackDepth then nnn.toNat else s.pc.toNat := by
  simp only [exec, execCallAddr] at h
  rcases s.push_cases s.pc with ⟨hlt, e⟩ | ⟨hge, e⟩ <;> rw [e] at h <;> cases h
  · rw [if_pos hlt, State.setPc_pc, zextAddr_toNat]
  · rw [if_neg hge, State.haltInstr_eq, State.setEng_pc]

theorem execRet_pc {s t : State} (hs : s.StackBounded) (h : exec .ret s = .next t) :
    if s.sp = 0 then t.pc = s.pc else s.stack[s.sp - 1]? = some t.pc := by
  obtain ⟨hlen, hsp⟩ := hs
  simp only [exec, execRet] at h
  rcases s.pop_cases with ⟨k, hk, e⟩ | ⟨hz, e⟩ <;> rw [e] at h <;> cases h
  · have hlt : k < s.stack.length := by omega
    rw [if_neg (by omega), State.setPc_pc, hk, Nat.add_sub_cancel, List.getD_eq_getElem _ _ hlt,
      List.getElem?_eq_getElem hlt]
  · rw [if_pos hz, State.haltInstr_eq, State.setEng_pc]

theorem execSkpVx_pc {x : Reg} {s t : State} (h : exec (.skpVx x) s = .next t) :
    t.pc = if s.keyQuery (s.getV x) = some true then s.pc + 2 else s.pc := by
  simp only [exec, execSkpVx] at h
  cases hq : s.keyQuery (s.getV x) with
  | none => rw [hq] at h; cases h; rfl
  | some p => rw [hq] at h; cases h; cases p <;> rfl

theorem execSknpVx_pc {x : Reg} {s t : State} (h : exec (.sknpVx x) s = .next t) :
    t.pc = if s.keyQuery (s.getV x) = some false then s.pc + 2 else s.pc := by
  simp only [exec, execSknpVx] at h
  cases hq : s.keyQuery (s.getV x) with
  | none => rw [hq] at h; cases h; rfl
  | some p => rw [hq] at h; cases h; cases p <;> rfl

theorem resumeAttempt_pc (s : State) (d : Reg) : (s.resumeAttempt d).pc = s.pc := by
  rcases s.resumeAttempt_cases d with ⟨k, _, e⟩ | ⟨_, e⟩
  · rw [e]; rfl
  · rw [e]

/-- Settles O18: the ten writers of `PC` one by one; every other instruction has `PC` in its frame. -/
theorem howEachInstructionLeavesPc : Obligations.HowEachInstructionLeavesPc := by
  refine ⟨fun i s t h => ?_, resumeAttempt_pc⟩
  cases i with
  | jpAddr nnn => cases h; exact zextAddr_toNat nnn
  | jpV0Addr nnn => cases h; exact zextAddr_add_zextByte_toNat nnn (s.getV 0)
  | callAddr nnn => exact fun _ => execCallAddr_pc h
  | ret => exact fun hs => execRet_pc hs h
  | seVxByte _ _ | sneVxByte _ _ | seVxVy _ _ _ | sneVxVy _ _ _ => cases h; simp [State.skipIf_pc]
  | skpVx x => exact execSkpVx_pc h
  | sknpVx x => exact execSknpVx_pc h
  | _ => exact (exec_frame h).pc rfl

end Sys2Proof.Machine
end

section
/-! PROOF. 30_encoding.md R60: the fields of a word as shifts and masks. -/

namespace Sys2Proof

/-- The mask of the low `k` bits is the remainder modulo `2 ^ k`. -/
theorem maskLow_toNat (op : Word) {k : Nat} (hk : k ≤ 16) :
    (op &&& BitVec.ofNat 16 (2 ^ k - 1)).toNat = op.toNat % 2 ^ k := by
  have hmask : 2 ^ k - 1 < 2 ^ 16 := (Nat.sub_lt (by positivity) one_pos).trans_le (Nat.pow_le_pow_right two_pos hk)
  rw [BitVec.toNat_and, BitVec.toNat_ofNat, Nat.mod_eq_of_lt hmask, Nat.and_two_pow_sub_one_eq_mod]

/-- `k` bits of a word from bit `start` on, by a shift and a mask. -/
theorem shiftMask_toNat (op : Word) (start : Nat) {k : Nat} (hk : k ≤ 16) :
    ((op >>> start) &&& BitVec.ofNat 16 (2 ^ k - 1)).toNat = op.toNat / 2 ^ start % 2 ^ k := by
  rw [maskLow_toNat _ hk, BitVec.toNat_ushiftRight, Nat.shiftRight_eq_div_pow]

/-- `nn = y << 4 | n`. -/
theorem fieldNN_eq_fieldY_fieldN (op : Word) : (fieldNN op).toNat = (fieldY op).val * 16 + (fieldN op).toNat := by
  rw [fieldNN_toNat, fieldY_val, fieldN_toNat]
  omega

/-- `nnn = x << 8 | nn`. -/
theorem fieldNNN_eq_fieldX_fieldNN (op : Word) :
    (fieldNNN op).toNat = (fieldX op).val * 256 + (fieldNN op).toNat := by
  rw [fieldNNN_toNat, fieldX_val, fieldNN_toNat]
  omega

/-- Settles O3: a shift and a mask are a quotient and a remainder of the word, as the fields are, and the overlaps are
facts about these numbers. -/
theorem fieldsAreTheSpecsShiftsAndMasks : Obligations.FieldsAreTheSpecsShiftsAndMasks := by
  intro op
  have hT : op.toNat / 4096 = op.toNat / 2 ^ 12 % 2 ^ 4 := by omega
  exact ⟨((fieldT_toNat op).trans hT).trans (shiftMask_toNat op 12 (k := 4) (by decide)).symm,
    (fieldX_val op).trans (shiftMask_toNat op 8 (k := 4) (by decide)).symm,
    (fieldY_val op).trans (shiftMask_toNat op 4 (k := 4) (by decide)).symm,
    (fieldN_toNat op).trans (maskLow_toNat op (k := 4) (by decide)).symm,
    (fieldNN_toNat op).trans (maskLow_toNat op (k := 8) (by decide)).symm,
    (fieldNNN_toNat op).trans (maskLow_toNat op (k := 12) (by decide)).symm,
    fieldNN_eq_fieldY_fieldN op, fieldNNN_eq_fieldX_fieldNN op⟩

end Sys2Proof
end

section
/-! PROOF. 40_control_flow.md R78, R81, R82: the jump and the skips on a byte. -/

namespace Sys2Proof.Machine

/-- Settles O10: the meaning of 1NNN is one write of `PC`. -/
theorem jumpSetsPc : Obligations.JumpSetsPc := fun nnn s =>
  ⟨rfl, s.setPc (zextAddr nnn), rfl, zextAddr_toNat nnn, onlyPc_setPc s (zextAddr nnn)⟩

/-- Settles O15: 3XNN is a skip on `V[x] = nn`. -/
theorem skipIfEqualToByte : Obligations.SkipIfEqualToByte := by
  intro x nn s
  refine ⟨rfl, s.skipIf (s.getV x == nn), rfl, onlyPc_skipIf s _, ?_⟩
  simp only [State.skipIf_pc, beq_iff_eq]

/-- Settles O16: 4XNN is a skip on `V[x] ≠ nn`; the negated condition swaps the two branches. -/
theorem skipIfNotEqualToByte : Obligations.SkipIfNotEqualToByte := by
  intro x nn s
  refine ⟨rfl, s.skipIf (s.getV x != nn), rfl, onlyPc_skipIf s _, ?_⟩
  simp only [State.skipIf_pc, bne_iff_ne, ite_not]

end Sys2Proof.Machine
end

section
/-! PROOF. 30_encoding.md R60 to R71: the decoder and the encoder undo each other. -/

namespace Sys2Proof

/-! ### From an instruction to its word and back -/

/-- The decoder reads every well-formed instruction back from its own word. -/
theorem decodeWord_encode (i : Instr) : Laws.EncodeDecode.Statement i :=
  match i with
  | .cls => Laws.EncodeDecode.cls
  | .ret => Laws.EncodeDecode.ret
  | .jpAddr nnn => Laws.EncodeDecode.jpAddr nnn
  | .callAddr nnn => Laws.EncodeDecode.callAddr nnn
  | .seVxByte x nn => Laws.EncodeDecode.seVxByte x nn
  | .sneVxByte x nn => Laws.EncodeDecode.sneVxByte x nn
  | .seVxVy x y low => Laws.EncodeDecode.seVxVy x y low
  | .ldVxByte x nn => Laws.EncodeDecode.ldVxByte x nn
  | .addVxByte x nn => Laws.EncodeDecode.addVxByte x nn
  | .ldVxVy x y => Laws.EncodeDecode.ldVxVy x y
  | .orVxVy x y => Laws.EncodeDecode.orVxVy x y
  | .andVxVy x y => Laws.EncodeDecode.andVxVy x y
  | .xorVxVy x y => Laws.EncodeDecode.xorVxVy x y
  | .addVxVy x y => Laws.EncodeDecode.addVxVy x y
  | .subVxVy x y => Laws.EncodeDecode.subVxVy x y
  | .shrVx x y => Laws.EncodeDecode.shrVx x y
  | .subnVxVy x y => Laws.EncodeDecode.subnVxVy x y
  | .shlVx x y => Laws.EncodeDecode.shlVx x y
  | .sneVxVy x y low => Laws.EncodeDecode.sneVxVy x y low
  | .ldIAddr nnn => Laws.EncodeDecode.ldIAddr nnn
  | .jpV0Addr nnn => Laws.EncodeDecode.jpV0Addr nnn
  | .rndVxByte x nn => Laws.EncodeDecode.rndVxByte x nn
  | .drwVxVyNibble x y n => Laws.EncodeDecode.drwVxVyNibble x y n
  | .skpVx x => Laws.EncodeDecode.skpVx x
  | .sknpVx x => Laws.EncodeDecode.sknpVx x
  | .ldVxDt x => Laws.EncodeDecode.ldVxDt x
  | .ldVxK x => Laws.EncodeDecode.ldVxK x
  | .ldDtVx x => Laws.EncodeDecode.ldDtVx x
  | .ldStVx x => Laws.EncodeDecode.ldStVx x
  | .addIVx x => Laws.EncodeDecode.addIVx x
  | .ldFVx x => Laws.EncodeDecode.ldFVx x
  | .ldBVx x => Laws.EncodeDecode.ldBVx x
  | .ldMemVx x => Laws.EncodeDecode.ldMemVx x
  | .ldVxMem x => Laws.EncodeDecode.ldVxMem x

/-- Settles O1: the bytes of a word decode as the word, and the word of an instruction decodes to it. -/
theorem decodeOfEncodeIsTheInstruction : Obligations.DecodeOfEncodeIsTheInstruction := by
  intro strict i rest hwf
  rw [encodeBytes, decode_bytesOfWord, decodeWord_encode i strict hwf]

/-! ### Which words a shape with the word's own fields encodes -/

theorem encodeNNN_eq_iff {op : Word} {t : Nibble} {nnn : Addr} :
    encodeNNN t nnn = op ↔ fieldT op = t ∧ fieldNNN op = nnn := by
  refine ⟨fun h => ⟨?_, ?_⟩, fun ⟨ht, hnnn⟩ => by rw [← ht, ← hnnn, encodeNNN_fields]⟩
  · simpa only [fieldT_encodeNNN] using (congrArg fieldT h).symm
  · simpa only [fieldNNN_encodeNNN] using (congrArg fieldNNN h).symm

theorem encodeXYN_eq_iff {op : Word} {t n : Nibble} :
    encodeXYN t (fieldX op) (fieldY op) n = op ↔ fieldT op = t ∧ fieldN op = n := by
  refine ⟨fun h => ⟨?_, ?_⟩, fun ⟨ht, hn⟩ => by rw [← ht, ← hn, encodeXYN_fields]⟩
  · simpa only [fieldT_encodeXYN] using (congrArg fieldT h).symm
  · simpa only [fieldN_encodeXYN] using (congrArg fieldN h).symm

theorem encodeXNN_eq_iff {op : Word} {t : Nibble} {nn : Byte} :
    encodeXNN t (fieldX op) nn = op ↔ fieldT op = t ∧ fieldNN op = nn := by
  refine ⟨fun h => ⟨?_, ?_⟩, fun ⟨ht, hnn⟩ => by rw [← ht, ← hnn, encodeXNN_fields]⟩
  · simpa only [fieldT_encodeXNN] using (congrArg fieldT h).symm
  · simpa only [fieldNN_encodeXNN] using (congrArg fieldNN h).symm

theorem encodeXYN_fields_eq_iff {op : Word} {t : Nibble} :
    encodeXYN t (fieldX op) (fieldY op) (fieldN op) = op ↔ fieldT op = t := by
  rw [encodeXYN_eq_iff, and_iff_left rfl]

theorem encodeXNN_fields_eq_iff {op : Word} {t : Nibble} :
    encodeXNN t (fieldX op) (fieldNN op) = op ↔ fieldT op = t := by
  rw [encodeXNN_eq_iff, and_iff_left rfl]

theorem encodeNNN_fields_eq_iff {op : Word} {t : Nibble} : encodeNNN t (fieldNNN op) = op ↔ fieldT op = t := by
  rw [encodeNNN_eq_iff, and_iff_left rfl]

/-! ### From a word to its instruction and back -/

theorem encode_decodeFamily0 {op : Word} (ht : fieldT op = 0x0) {i : Instr}
    (h : decodeFamily0 op = some i) : encode i = op ∧ ∀ strict, i.wellFormed strict = true := by
  unfold decodeFamily0 at h
  split at h <;> cases h
  all_goals exact ⟨encodeNNN_eq_iff.mpr ⟨ht, BitVec.eq_of_toNat_eq ‹_›⟩, fun _ => rfl⟩

theorem encode_decodeFamily8 {op : Word} (ht : fieldT op = 0x8) {i : Instr}
    (h : decodeFamily8 op = some i) : encode i = op ∧ ∀ strict, i.wellFormed strict = true := by
  unfold decodeFamily8 at h
  split at h <;> cases h
  all_goals exact ⟨encodeXYN_eq_iff.mpr ⟨ht, BitVec.eq_of_toNat_eq ‹_›⟩, fun _ => rfl⟩

theorem encode_decodeFamilyE {op : Word} (ht : fieldT op = 0xE) {i : Instr}
    (h : decodeFamilyE op = some i) : encode i = op ∧ ∀ strict, i.wellFormed strict = true := by
  unfold decodeFamilyE at h
  split at h <;> cases h
  all_goals exact ⟨encodeXNN_eq_iff.mpr ⟨ht, BitVec.eq_of_toNat_eq ‹_›⟩, fun _ => rfl⟩

theorem encode_decodeFamilyF {op : Word} (ht : fieldT op = 0xF) {i : Instr}
    (h : decodeFamilyF op = some i) : encode i = op ∧ ∀ strict, i.wellFormed strict = true := by
  unfold decodeFamilyF at h
  split at h <;> cases h
  all_goals exact ⟨encodeXNN_eq_iff.mpr ⟨ht, BitVec.eq_of_toNat_eq ‹_›⟩, fun _ => rfl⟩

/-- Settles O2: a known top nibble and a known selector, put back beside the fields the decoder read, are the word. -/
theorem encodeOfDecodeIsTheWord : Obligations.EncodeOfDecodeIsTheWord := by
  intro strict op i h
  unfold decodeWord at h
  split at h
  case h_1 ht => exact (encode_decodeFamily0 (BitVec.eq_of_toNat_eq ht) h).imp_right (· strict)
  case h_9 ht => exact (encode_decodeFamily8 (BitVec.eq_of_toNat_eq ht) h).imp_right (· strict)
  case h_15 ht => exact (encode_decodeFamilyE (BitVec.eq_of_toNat_eq ht) h).imp_right (· strict)
  case h_16 ht => exact (encode_decodeFamilyF (BitVec.eq_of_toNat_eq ht) h).imp_right (· strict)
  case h_17 => cases h
  case h_6 ht | h_10 ht =>
    split at h
    · cases h
    · next hlow =>
      cases h
      refine ⟨encodeXYN_fields_eq_iff.mpr (BitVec.eq_of_toNat_eq ht), ?_⟩
      cases strict <;> simp_all [Instr.wellFormed]
  case h_14 ht =>
    cases h
    exact ⟨encodeXYN_fields_eq_iff.mpr (BitVec.eq_of_toNat_eq ht), rfl⟩
  case h_2 ht | h_3 ht | h_11 ht | h_12 ht =>
    cases h
    exact ⟨encodeNNN_fields_eq_iff.mpr (BitVec.eq_of_toNat_eq ht), rfl⟩
  case h_4 ht | h_5 ht | h_7 ht | h_8 ht | h_13 ht =>
    cases h
    exact ⟨encodeXNN_fields_eq_iff.mpr (BitVec.eq_of_toNat_eq ht), rfl⟩

end Sys2Proof
end

section
/-! PROOF. spec/opcode_table.json: the masks of the table's rows and the decoder describe the same words. -/

namespace Sys2Proof

open Machine

/-! ### The masks -/

/-- The mask of the top nibble leaves the top nibble. -/
theorem and_F000 (op : Word) : op &&& 0xF000 = encodeNNN (fieldT op) 0 := by
  apply BitVec.eq_of_getLsbD_eq
  intro k hk
  simp only [encodeNNN, fieldT, BitVec.getLsbD_and, BitVec.getLsbD_append, BitVec.getLsbD_extractLsb']
  interval_cases k <;> simp

/-- The mask of the top and the low nibble leaves these two. -/
theorem and_F00F (op : Word) : op &&& 0xF00F = encodeXYN (fieldT op) 0 0 (fieldN op) := by
  apply BitVec.eq_of_getLsbD_eq
  intro k hk
  simp only [encodeXYN, regBits, fieldT, fieldN, BitVec.getLsbD_and, BitVec.getLsbD_append,
    BitVec.getLsbD_extractLsb']
  interval_cases k <;> simp

/-- The mask of the top nibble and the low byte leaves these two. -/
theorem and_F0FF (op : Word) : op &&& 0xF0FF = encodeXNN (fieldT op) 0 (fieldNN op) := by
  apply BitVec.eq_of_getLsbD_eq
  intro k hk
  simp only [encodeXNN, regBits, fieldT, fieldNN, BitVec.getLsbD_and, BitVec.getLsbD_append,
    BitVec.getLsbD_extractLsb']
  interval_cases k <;> simp

/-- The words with top nibble `t`. -/
theorem and_F000_eq_iff {op : Word} {t : Nibble} : op &&& 0xF000 = encodeNNN t 0 ↔ fieldT op = t := by
  rw [and_F000]
  refine ⟨fun h => ?_, fun h => by rw [h]⟩
  simpa only [fieldT_encodeNNN] using congrArg fieldT h

/-- The words with top nibble `t` and low nibble `n`. -/
theorem and_F00F_eq_iff {op : Word} {t n : Nibble} :
    op &&& 0xF00F = encodeXYN t 0 0 n ↔ fieldT op = t ∧ fieldN op = n := by
  rw [and_F00F]
  refine ⟨fun h => ⟨?_, ?_⟩, fun ⟨ht, hn⟩ => by rw [ht, hn]⟩
  · simpa only [fieldT_encodeXYN] using congrArg fieldT h
  · simpa only [fieldN_encodeXYN] using congrArg fieldN h

/-- The words with top nibble `t` and low byte `nn`. -/
theorem and_F0FF_eq_iff {op : Word} {t : Nibble} {nn : Byte} :
    op &&& 0xF0FF = encodeXNN t 0 nn ↔ fieldT op = t ∧ fieldNN op = nn := by
  rw [and_F0FF]
  refine ⟨fun h => ⟨?_, ?_⟩, fun ⟨ht, hnn⟩ => by rw [ht, hnn]⟩
  · simpa only [fieldT_encodeXNN] using congrArg fieldT h
  · simpa only [fieldNN_encodeXNN] using congrArg fieldNN h

/-! ### The words of a row -/

/-- The instruction of `j`'s row whose operands are the fields of `op`. -/
def Instr.withFields (op : Word) : Instr → Instr
  | .cls => .cls
  | .ret => .ret
  | .jpAddr _ => .jpAddr (fieldNNN op)
  | .callAddr _ => .callAddr (fieldNNN op)
  | .seVxByte _ _ => .seVxByte (fieldX op) (fieldNN op)
  | .sneVxByte _ _ => .sneVxByte (fieldX op) (fieldNN op)
  | .seVxVy _ _ _ => .seVxVy (fieldX op) (fieldY op) (fieldN op)
  | .ldVxByte _ _ => .ldVxByte (fieldX op) (fieldNN op)
  | .addVxByte _ _ => .addVxByte (fieldX op) (fieldNN op)
  | .ldVxVy _ _ => .ldVxVy (fieldX op) (fieldY op)
  | .orVxVy _ _ => .orVxVy (fieldX op) (fieldY op)
  | .andVxVy _ _ => .andVxVy (fieldX op) (fieldY op)
  | .xorVxVy _ _ => .xorVxVy (fieldX op) (fieldY op)
  | .addVxVy _ _ => .addVxVy (fieldX op) (fieldY op)
  | .subVxVy _ _ => .subVxVy (fieldX op) (fieldY op)
  | .shrVx _ _ => .shrVx (fieldX op) (fieldY op)
  | .subnVxVy _ _ => .subnVxVy (fieldX op) (fieldY op)
  | .shlVx _ _ => .shlVx (fieldX op) (fieldY op)
  | .sneVxVy _ _ _ => .sneVxVy (fieldX op) (fieldY op) (fieldN op)
  | .ldIAddr _ => .ldIAddr (fieldNNN op)
  | .jpV0Addr _ => .jpV0Addr (fieldNNN op)
  | .rndVxByte _ _ => .rndVxByte (fieldX op) (fieldNN op)
  | .drwVxVyNibble _ _ _ => .drwVxVyNibble (fieldX op) (fieldY op) (fieldN op)
  | .skpVx _ => .skpVx (fieldX op)
  | .sknpVx _ => .sknpVx (fieldX op)
  | .ldVxDt _ => .ldVxDt (fieldX op)
  | .ldVxK _ => .ldVxK (fieldX op)
  | .ldDtVx _ => .ldDtVx (fieldX op)
  | .ldStVx _ => .ldStVx (fieldX op)
  | .addIVx _ => .addIVx (fieldX op)
  | .ldFVx _ => .ldFVx (fieldX op)
  | .ldBVx _ => .ldBVx (fieldX op)
  | .ldMemVx _ => .ldMemVx (fieldX op)
  | .ldVxMem _ => .ldVxMem (fieldX op)

theorem opcodeRow_withFields (op : Word) (j : Instr) : opcodeRow (j.withFields op) = opcodeRow j := by
  cases j <;> rfl

theorem withFields_encode (i : Instr) : i.withFields (encode i) = i := by
  cases i <;> simp [Instr.withFields, encode]

/-- The rows whose mask is the same under both settings of `STRICT_5_9`. -/
theorem covers_iff_of_oneMask {strict : Bool} {op : Word} {row : OpcodeRow} {i : Instr}
    (hmask : row.strictMask = row.mask) (hwf : i.wellFormed strict = true)
    (h : encode i = op ↔ op &&& row.mask = row.matchBits) :
    row.covers strict op = true ↔ encode i = op ∧ i.wellFormed strict = true := by
  rw [OpcodeRow.covers, beq_iff_eq, hmask, ite_self, ← h, and_iff_left hwf]

/-- The rows of 5XYn and 9XYn: the low nibble has part in them under `STRICT_5_9` alone (30_encoding.md R68). -/
theorem covers_iff_of_strictMask {strict : Bool} {op : Word} {row : OpcodeRow} {t : Nibble}
    (hmask : row.mask = 0xF000) (hstrict : row.strictMask = 0xF00F) (hmatch : row.matchBits = encodeNNN t 0)
    (hmatch' : row.matchBits = encodeXYN t 0 0 0) :
    row.covers strict op = true ↔
      encodeXYN t (fieldX op) (fieldY op) (fieldN op) = op ∧ (!strict || fieldN op == 0) = true := by
  rw [OpcodeRow.covers, beq_iff_eq, hmask, hstrict, encodeXYN_fields_eq_iff]
  cases strict with
  | false =>
    rw [if_neg Bool.false_ne_true, hmatch, and_F000_eq_iff]
    exact (and_iff_left rfl).symm
  | true =>
    rw [if_pos rfl, hmatch', and_F00F_eq_iff]
    exact and_congr_right fun _ => beq_iff_eq.symm

/-- A row covers a word exactly when the word is that of the row's instruction with the word's fields. -/
theorem covers_iff_encode_withFields (strict : Bool) (op : Word) (j : Instr) :
    (opcodeRow j).covers strict op = true ↔
      encode (j.withFields op) = op ∧ (j.withFields op).wellFormed strict = true := by
  have hFixed (w : Word) : w = op ↔ op &&& 0xFFFF = w := by
    rw [show (0xFFFF : Word) = BitVec.allOnes 16 from rfl, BitVec.and_allOnes, eq_comm]
  cases j with
  | seVxVy => exact covers_iff_of_strictMask (t := 0x5) rfl rfl rfl rfl
  | sneVxVy => exact covers_iff_of_strictMask (t := 0x9) rfl rfl rfl rfl
  | cls | ret => exact covers_iff_of_oneMask rfl rfl (hFixed _)
  | jpAddr | callAddr | ldIAddr | jpV0Addr =>
    exact covers_iff_of_oneMask rfl rfl (encodeNNN_fields_eq_iff.trans and_F000_eq_iff.symm)
  | seVxByte | sneVxByte | ldVxByte | addVxByte | rndVxByte =>
    exact covers_iff_of_oneMask rfl rfl (encodeXNN_fields_eq_iff.trans and_F000_eq_iff.symm)
  | drwVxVyNibble => exact covers_iff_of_oneMask rfl rfl (encodeXYN_fields_eq_iff.trans and_F000_eq_iff.symm)
  | ldVxVy | orVxVy | andVxVy | xorVxVy | addVxVy | subVxVy | shrVx | subnVxVy | shlVx =>
    exact covers_iff_of_oneMask rfl rfl (encodeXYN_eq_iff.trans and_F00F_eq_iff.symm)
  | skpVx | sknpVx | ldVxDt | ldVxK | ldDtVx | ldStVx | addIVx | ldFVx | ldBVx | ldMemVx | ldVxMem =>
    exact covers_iff_of_oneMask rfl rfl (encodeXNN_eq_iff.trans and_F0FF_eq_iff.symm)

/-- Settles O5: a row's words are the encodings of its instruction, and those are the words that decode to it. -/
theorem decoderFollowsTheOpcodeTableMasks : Obligations.DecoderFollowsTheOpcodeTableMasks := by
  intro strict op j
  refine ⟨fun h => ?_, fun ⟨i, hi, hrow⟩ => ?_⟩
  · obtain ⟨henc, hwf⟩ := (covers_iff_encode_withFields strict op j).mp h
    refine ⟨j.withFields op, ?_, opcodeRow_withFields op j⟩
    have hdec := decodeWord_encode (j.withFields op) strict hwf
    rwa [henc] at hdec
  · obtain ⟨henc, hwf⟩ := encodeOfDecodeIsTheWord strict op i hi
    have hfields : i.withFields op = i := by rw [← henc, withFields_encode]
    rw [← hrow, covers_iff_encode_withFields, hfields]
    exact ⟨henc, hwf⟩

end Sys2Proof
end

section
/-! PROOF. 30_encoding.md R69: the words without an instruction. -/

namespace Sys2Proof

open Machine

/-! ### The words each dispatch refuses -/

theorem decodeFamily0_eq_none {op : Word} :
    decodeFamily0 op = none ↔ (fieldNNN op).toNat ∉ [0x0E0, 0x0EE] := by
  unfold decodeFamily0
  split <;> simp_all

theorem decodeFamily8_eq_none {op : Word} :
    decodeFamily8 op = none ↔ (fieldN op).toNat ∈ [0x8, 0x9, 0xA, 0xB, 0xC, 0xD, 0xF] := by
  unfold decodeFamily8
  split <;> simp_all
  omega

theorem decodeFamilyE_eq_none {op : Word} :
    decodeFamilyE op = none ↔ (fieldNN op).toNat ∉ [0x9E, 0xA1] := by
  unfold decodeFamilyE
  split <;> simp_all

theorem decodeFamilyF_eq_none {op : Word} :
    decodeFamilyF op = none ↔
      (fieldNN op).toNat ∉ [0x07, 0x0A, 0x15, 0x18, 0x1E, 0x29, 0x33, 0x55, 0x65] := by
  unfold decodeFamilyF
  split <;> simp_all

theorem lowNibble_refused_iff {strict : Bool} {op : Word} {i : Instr} :
    (if strict && fieldN op != 0 then none else some i) = none ↔ strict = true ∧ (fieldN op).toNat ≠ 0 := by
  have hzero : fieldN op = 0#4 ↔ (fieldN op).toNat = 0 := BitVec.toNat_inj.symm
  simp [hzero]

/-! ### The list of R69 in fields -/

/-- The list of 30_encoding.md R69, by the values of the fields. -/
def UnsupportedFields (strict : Bool) (op : Word) : Prop :=
  ((fieldT op).toNat = 0x0 ∧ (fieldNNN op).toNat ∉ [0x0E0, 0x0EE]) ∨
  ((fieldT op).toNat = 0x8 ∧ (fieldN op).toNat ∈ [0x8, 0x9, 0xA, 0xB, 0xC, 0xD, 0xF]) ∨
  ((fieldT op).toNat = 0xE ∧ (fieldNN op).toNat ∉ [0x9E, 0xA1]) ∨
  ((fieldT op).toNat = 0xF ∧
    (fieldNN op).toNat ∉ [0x07, 0x0A, 0x15, 0x18, 0x1E, 0x29, 0x33, 0x55, 0x65]) ∨
  (strict = true ∧ ((fieldT op).toNat = 0x5 ∨ (fieldT op).toNat = 0x9) ∧ (fieldN op).toNat ≠ 0)

/-- The decoder refuses the words of the list, top nibble by top nibble. -/
theorem decodeWord_eq_none_iff (strict : Bool) (op : Word) :
    decodeWord strict op = none ↔ UnsupportedFields strict op := by
  unfold decodeWord UnsupportedFields
  split
  case h_1 ht => rw [decodeFamily0_eq_none]; simp [ht]
  case h_9 ht => rw [decodeFamily8_eq_none]; simp [ht]
  case h_15 ht => rw [decodeFamilyE_eq_none]; simp [ht]
  case h_16 ht => rw [decodeFamilyF_eq_none]; simp [ht]
  case h_6 ht | h_10 ht => rw [lowNibble_refused_iff]; simp [ht]
  case h_17 =>
    have hlt := (fieldT op).isLt
    simp only [imp_false] at *
    omega
  all_goals simp_all

/-- The two spellings of the list of R69 are one. -/
theorem unsupportedWord_iff_fields (strict : Bool) (op : Word) :
    UnsupportedWord strict op ↔ UnsupportedFields strict op := by
  obtain ⟨hT, -, -, hN, hNN, -, -, -⟩ := fieldsAreTheSpecsShiftsAndMasks op
  have hT' := fieldT_toNat op
  have hNNN := fieldNNN_toNat op
  unfold UnsupportedFields
  simp only [UnsupportedWord, ← BitVec.toNat_inj, ne_eq, List.mem_cons, List.not_mem_nil, or_false, not_or, ← hT,
    ← hN, ← hNN, BitVec.toNat_ofNat]
  refine or_congr (and_congr_right fun h0 => ?_) Iff.rfl
  have hop : (fieldNNN op).toNat = op.toNat := by
    change (fieldT op).toNat = 0 at h0
    omega
  rw [hop]
  exact Iff.rfl

/-- Settles O4: the decoder refuses exactly the words listed, and the dispatch of such a word is a halt. -/
theorem unsupportedWordsAreTheListedOnesAndHalt : Obligations.UnsupportedWordsAreTheListedOnesAndHalt := by
  intro strict op
  have hlist : decodeWord strict op = none ↔ UnsupportedWord strict op :=
    (decodeWord_eq_none_iff strict op).trans (unsupportedWord_iff_fields strict op).symm
  refine ⟨hlist, fun s addr hs hop => ?_⟩
  have hnone : decodeWord s.cfg.strict59 op = none := hs ▸ hlist.mpr hop
  refine ⟨s.raiseHalt .unsupportedOpcode (some op) addr none, ?_, onlyEngine_setEng s _, rfl⟩
  rw [State.dispatch, hnone]

end Sys2Proof
end

section
/-! PROOF. What the end of a tick, a resume attempt and a `step()` call at the start of a step leave, field by field. -/

namespace Sys2Proof.Machine

/-! ### The end of a tick -/

@[simp] theorem State.endTick_cfg (s : State) : s.endTick.cfg = s.cfg := by rw [s.endTick_eq]
@[simp] theorem State.endTick_v (s : State) : s.endTick.v = s.v := by rw [s.endTick_eq]
@[simp] theorem State.endTick_pc (s : State) : s.endTick.pc = s.pc := by rw [s.endTick_eq]
@[simp] theorem State.endTick_i (s : State) : s.endTick.i = s.i := by rw [s.endTick_eq]
@[simp] theorem State.endTick_stack (s : State) : s.endTick.stack = s.stack := by rw [s.endTick_eq]
@[simp] theorem State.endTick_sp (s : State) : s.endTick.sp = s.sp := by rw [s.endTick_eq]
@[simp] theorem State.endTick_eng (s : State) : s.endTick.eng = s.eng := by rw [s.endTick_eq]
@[simp] theorem State.endTick_fb (s : State) : s.endTick.fb = s.fb := by rw [s.endTick_eq]
@[simp] theorem State.endTick_keysDown (s : State) : s.endTick.keysDown = s.keysDown := by rw [s.endTick_eq]
@[simp] theorem State.endTick_lastKey (s : State) : s.endTick.lastKey = s.lastKey := by rw [s.endTick_eq]
@[simp] theorem State.endTick_mem (s : State) : s.endTick.mem = s.mem := by rw [s.endTick_eq]
@[simp] theorem State.endTick_inputs (s : State) : s.endTick.inputs = s.inputs := by rw [s.endTick_eq]
@[simp] theorem State.endTick_drawCount (s : State) : s.endTick.drawCount = s.drawCount := by rw [s.endTick_eq]
@[simp] theorem State.endTick_dt (s : State) : s.endTick.dt = countDown s.dt := by rw [s.endTick_eq]
@[simp] theorem State.endTick_st (s : State) : s.endTick.st = countDown s.st := by rw [s.endTick_eq]
@[simp] theorem State.endTick_batch (s : State) : s.endTick.batch = 0 := by rw [s.endTick_eq]
@[simp] theorem State.endTick_soundOn (s : State) : s.endTick.soundOn = decide (s.st.toNat > 0) := by
  rw [s.endTick_eq]
@[simp] theorem State.endTick_sched (s : State) :
    s.endTick.sched = if s.eng.isHalted then .stopped else s.sched := by
  rw [s.endTick_eq]
@[simp] theorem State.getV_endTick (s : State) (r : Reg) : s.endTick.getV r = s.getV r := by
  rw [s.endTick_eq]; rfl
@[simp] theorem State.byteAt_endTick (s : State) (a : Nat) : s.endTick.byteAt a = s.byteAt a := by
  rw [s.endTick_eq]; rfl

/-- The end of a tick forgets how many calls were made. -/
theorem State.endTick_countStep (s : State) : s.countStep.endTick = s.endTick := by
  rw [State.endTick_eq, State.endTick_eq]; rfl

/-- The batch goes on: the engine runs and a call is left. -/
theorem afterStepCall_continues {s : State} (heng : s.eng = .running) (hbatch : s.batch + 1 < s.cfg.batchSize) :
    s.afterStepCall = s.countStep := by
  rcases s.afterStepCall_cases with ⟨_, _, e⟩ | ⟨hno, _⟩
  · exact e
  · exact absurd ⟨heng, hbatch⟩ hno

/-- The tick ends: the engine does not run, or no call is left. -/
theorem afterStepCall_ends {s : State} (h : s.eng ≠ .running ∨ s.cfg.batchSize ≤ s.batch + 1) :
    s.afterStepCall = s.endTick := by
  rcases s.afterStepCall_cases with ⟨heng, hbatch, _⟩ | ⟨_, e⟩
  · exact absurd heng (h.resolve_right (Nat.not_le.mpr hbatch))
  · exact e

/-! ### A resume attempt -/

theorem resumeAttempt_latched {s : State} {k : Key} (h : s.lastKey = some k) (d : Reg) :
    s.resumeAttempt d = (({ s with lastKey := none } : State).setV d (BitVec.ofNat 8 k.val)).setEng .running := by
  rcases s.resumeAttempt_cases d with ⟨j, hj, e⟩ | ⟨hnone, _⟩
  · rw [h] at hj; cases hj; exact e
  · rw [h] at hnone; cases hnone

theorem resumeAttempt_unlatched {s : State} (h : s.lastKey = none) (d : Reg) : s.resumeAttempt d = s := by
  rcases s.resumeAttempt_cases d with ⟨j, hj, _⟩ | ⟨_, e⟩
  · rw [h] at hj; cases hj
  · exact e

/-- A resume attempt leaves the latch empty, and touches nothing else but the destination and the engine. -/
theorem State.resumeAttempt_frame (s : State) (d : Reg) :
    s.resumeAttempt d =
      { s with v := (s.resumeAttempt d).v, eng := (s.resumeAttempt d).eng, lastKey := none } := by
  cases h : s.lastKey with
  | some k => rw [resumeAttempt_latched h]; rfl
  | none => rw [resumeAttempt_unlatched h, ← h]

theorem getV_resumeAttempt_ne (s : State) {d r : Reg} (h : d ≠ r) : (s.resumeAttempt d).getV r = s.getV r := by
  rcases s.resumeAttempt_cases d with ⟨k, _, e⟩ | ⟨_, e⟩ <;> rw [e]
  rw [State.getV_setEng, State.getV_setV_ne _ _ h]
  rfl

theorem keyByte_toNat (k : Key) : (BitVec.ofNat 8 k.val).toNat = k.val := by
  rw [BitVec.toNat_ofNat]; omega

@[simp] theorem State.resumeAttempt_cfg (s : State) (d : Reg) : (s.resumeAttempt d).cfg = s.cfg := by
  rw [s.resumeAttempt_frame]
@[simp] theorem State.resumeAttempt_i (s : State) (d : Reg) : (s.resumeAttempt d).i = s.i := by
  rw [s.resumeAttempt_frame]
@[simp] theorem State.resumeAttempt_stack (s : State) (d : Reg) : (s.resumeAttempt d).stack = s.stack := by
  rw [s.resumeAttempt_frame]
@[simp] theorem State.resumeAttempt_sp (s : State) (d : Reg) : (s.resumeAttempt d).sp = s.sp := by
  rw [s.resumeAttempt_frame]
@[simp] theorem State.resumeAttempt_dt (s : State) (d : Reg) : (s.resumeAttempt d).dt = s.dt := by
  rw [s.resumeAttempt_frame]
@[simp] theorem State.resumeAttempt_st (s : State) (d : Reg) : (s.resumeAttempt d).st = s.st := by
  rw [s.resumeAttempt_frame]
@[simp] theorem State.resumeAttempt_fb (s : State) (d : Reg) : (s.resumeAttempt d).fb = s.fb := by
  rw [s.resumeAttempt_frame]
@[simp] theorem State.resumeAttempt_soundOn (s : State) (d : Reg) : (s.resumeAttempt d).soundOn = s.soundOn := by
  rw [s.resumeAttempt_frame]
@[simp] theorem State.resumeAttempt_sched (s : State) (d : Reg) : (s.resumeAttempt d).sched = s.sched := by
  rw [s.resumeAttempt_frame]
@[simp] theorem State.resumeAttempt_batch (s : State) (d : Reg) : (s.resumeAttempt d).batch = s.batch := by
  rw [s.resumeAttempt_frame]
@[simp] theorem State.resumeAttempt_keysDown (s : State) (d : Reg) : (s.resumeAttempt d).keysDown = s.keysDown := by
  rw [s.resumeAttempt_frame]
@[simp] theorem State.resumeAttempt_mem (s : State) (d : Reg) : (s.resumeAttempt d).mem = s.mem := by
  rw [s.resumeAttempt_frame]
@[simp] theorem State.resumeAttempt_inputs (s : State) (d : Reg) : (s.resumeAttempt d).inputs = s.inputs := by
  rw [s.resumeAttempt_frame]
@[simp] theorem State.resumeAttempt_drawCount (s : State) (d : Reg) : (s.resumeAttempt d).drawCount = s.drawCount := by
  rw [s.resumeAttempt_frame]
@[simp] theorem State.resumeAttempt_lastKey (s : State) (d : Reg) : (s.resumeAttempt d).lastKey = none := by
  rw [s.resumeAttempt_frame]
@[simp] theorem State.byteAt_resumeAttempt (s : State) (d : Reg) (a : Nat) :
    (s.resumeAttempt d).byteAt a = s.byteAt a := by
  rw [s.resumeAttempt_frame]; rfl

/-! ### The `step()` call of a step -/

/-- What the start of a tick and a `step()` call leave together. -/
theorem stepCall_beginTick_frame {s u : State} (h : s.beginTick.stepCall = .next u) :
    u.cfg = s.cfg ∧ u.sched = s.sched ∧ u.batch = s.batch := by
  obtain ⟨hcfg, hsched, hbatch, -⟩ := State.stepCall_frame h
  exact ⟨hcfg.trans s.beginTick_cfg, hsched.trans s.beginTick_sched, hbatch.trans s.beginTick_batch⟩

theorem State.nextWord_beginTick (s : State) : s.beginTick.nextWord = s.nextWord := by
  simp only [State.nextWord, State.beginTick_pc, State.byteAt_beginTick]

theorem run_one {s t : State} (h : step s = .next t) : core.run 1 s = .next t := run_succ h 0

end Sys2Proof.Machine
end

section
/-! PROOF. 40_control_flow.md R77, R79: 2NNN and 00EE, on either side of the bounds of the call stack. -/

namespace Sys2Proof.Machine

/-! ### The two outcomes of each -/

theorem execCallAddr_pushes (nnn : Addr) {s : State} (h : s.sp < s.cfg.stackDepth) :
    exec (.callAddr nnn) s =
      .next (({ s with stack := s.stack.set s.sp s.pc, sp := s.sp + 1 } : State).setPc (zextAddr nnn)) := by
  have hpush : s.push s.pc = some { s with stack := s.stack.set s.sp s.pc, sp := s.sp + 1 } := if_pos h
  simp only [exec, execCallAddr, hpush]

theorem execCallAddr_overflows (nnn : Addr) {s : State} (h : ¬ s.sp < s.cfg.stackDepth) :
    exec (.callAddr nnn) s = .next (s.haltInstr (.callAddr nnn) .stackOverflow none) := by
  have hpush : s.push s.pc = none := if_neg h
  simp only [exec, execCallAddr, hpush]

theorem execRet_pops {s : State} {k : Nat} (h : s.sp = k + 1) :
    exec .ret s = .next (({ s with sp := k } : State).setPc (s.stack.getD k 0)) := by
  simp only [exec, execRet, State.pop, h]

theorem execRet_underflows {s : State} (h : s.sp = 0) :
    exec .ret s = .next (s.haltInstr .ret .stackUnderflow none) := by
  simp only [exec, execRet, State.pop, h]

/-! ### The statements -/

/-- Settles O12: with room on the stack the call is a push and a jump, without it a halt. -/
theorem callPushesOrOverflows : Obligations.CallPushesOrOverflows := by
  intro nnn s ⟨hlen, _⟩
  refine ⟨fun hlt => ?_, fun hfull => ?_⟩
  · refine ⟨_, execCallAddr_pushes nnn hlt, zextAddr_toNat nnn, rfl, ?_, fun k hk => ?_, fun _ => rfl, rfl⟩
    · exact List.getElem?_set_self (hlen ▸ hlt)
    · exact List.getElem?_set_ne (Ne.symm hk)
  · exact ⟨_, execCallAddr_overflows nnn (by omega), onlyEngine_setEng s _, rfl⟩

/-- Settles O13: with an entry on the stack the return takes it and leaves it there, without one it halts. -/
theorem returnPopsOrUnderflows : Obligations.ReturnPopsOrUnderflows := by
  intro s ⟨hlen, hsp⟩
  refine ⟨fun hpos => ?_, fun hempty => ?_⟩
  · obtain ⟨k, hk⟩ := Nat.exists_eq_succ_of_ne_zero hpos.ne'
    have hlt : k < s.stack.length := by omega
    refine ⟨_, execRet_pops hk, hk.symm, ?_, fun _ => rfl, rfl⟩
    simp only [State.setPc_pc, State.setPc_sp, List.getD_eq_getElem _ _ hlt, List.getElem?_eq_getElem hlt]
  · exact ⟨_, execRet_underflows hempty, onlyEngine_setEng s _, rfl⟩

/-- Settles O14: the entry the return reads is the one the call wrote. -/
theorem returnUndoesCall : Obligations.ReturnUndoesCall := by
  intro nnn s t u ⟨hlen, _⟩ hlt hcall hsp hheld
  rw [execCallAddr_pushes nnn hlt] at hcall
  cases hcall
  have hentry : u.stack[s.sp]? = some s.pc :=
    (hheld s.sp (Nat.lt_succ_self _)).trans (List.getElem?_set_self (hlen ▸ hlt))
  refine ⟨_, execRet_pops hsp, ?_, rfl⟩
  rw [State.setPc_pc, List.getD_eq_getElem?_getD, hentry, Option.getD_some]

end Sys2Proof.Machine
end

section
/-! PROOF. The invariant of a run: it holds after every load, and every step keeps it. -/

namespace Sys2Proof.Machine

/-! ### The part of the invariant that the scheduler has no part in -/

/-- The invariant without its clauses about the scheduler: what the `step()` calls of a tick keep. -/
def State.DataInv (s : State) : Prop := s.MemCanonical ∧ s.StackBounded ∧ s.PcBounded

theorem State.DataInv.congr {s t : State} (h : s.DataInv) (hcfg : t.cfg = s.cfg) (hmem : t.mem = s.mem)
    (hstack : t.stack = s.stack) (hsp : t.sp = s.sp) (hpc : t.pc = s.pc) : t.DataInv := by
  simpa only [State.DataInv, State.MemCanonical, State.StackBounded, State.PcBounded, hcfg, hmem, hstack, hsp, hpc]
    using h

/-! ### One instruction -/

/-- `PC` is advanced and skips without a wrap (10_state.md R23). -/
theorem pc_add_two_toNat {w : Word} (hw : w.toNat ≤ 0x1000) : (w + 2).toNat = w.toNat + 2 := by
  bv_omega

/-- A skip from an address a fetch allows stays far below the wrap (10_state.md R23). -/
theorem skip_le {w : Word} (hw : w.toNat ≤ 0x1000) (c : Prop) [Decidable c] :
    (if c then w + 2 else w).toNat ≤ 0x10FE := by
  split
  · rw [pc_add_two_toNat hw]; omega
  · omega

/-- `PC` after an instruction, from the table of 10_state.md R21. -/
theorem exec_pc_le {i : Instr} {s t : State} (hpc : s.pc.toNat ≤ 0x1000)
    (hentries : ∀ w ∈ s.stack, w.toNat ≤ 0x1000) (hs : s.StackBounded) (h : exec i s = .next t) :
    t.pc.toNat ≤ 0x10FE := by
  have hleaves := howEachInstructionLeavesPc.1 i s t h
  cases i with
  | jpAddr nnn =>
    have hnnn := nnn.isLt
    simp only at hleaves
    omega
  | jpV0Addr nnn =>
    have hnnn := nnn.isLt
    have hv := (s.getV 0).isLt
    simp only at hleaves
    omega
  | callAddr nnn =>
    have hnnn := nnn.isLt
    have hleaves := hleaves hs
    split at hleaves <;> omega
  | ret =>
    have hleaves := hleaves hs
    split at hleaves
    · rw [hleaves]; omega
    · have := hentries _ (List.mem_of_getElem? hleaves)
      omega
  | seVxByte | sneVxByte | seVxVy | sneVxVy | skpVx | sknpVx => exact hleaves ▸ skip_le hpc _
  | _ => exact hleaves ▸ hpc.trans (by decide)

/-- An instruction leaves the entries of the call stack, or stores `PC` among them. -/
theorem exec_stack_cases {i : Instr} {s t : State} (h : exec i s = .next t) :
    t.stack = s.stack ∨ t.stack = s.stack.set s.sp s.pc := by
  cases hi : touchesStack i with
  | false => exact .inl ((exec_frame h).stack hi).1
  | true =>
    cases i with
    | ret =>
      cases hsp : s.sp with
      | zero => rw [execRet_underflows hsp] at h; cases h; exact .inl rfl
      | succ k => rw [execRet_pops hsp] at h; cases h; exact .inl rfl
    | callAddr nnn =>
      by_cases hlt : s.sp < s.cfg.stackDepth
      · rw [execCallAddr_pushes nnn hlt] at h; cases h; exact .inr rfl
      · rw [execCallAddr_overflows nnn hlt] at h; cases h; exact .inl rfl
    | _ => cases hi

theorem exec_keeps_dataInv {i : Instr} {s t : State} (hs : s.DataInv) (hpc : s.pc.toNat ≤ 0x1000)
    (h : exec i s = .next t) : t.DataInv := by
  obtain ⟨hmem, hstack, -, hentries⟩ := hs
  refine ⟨(exec_frame h).canonical hmem, (exec_frame h).bounded hstack, exec_pc_le hpc hentries hstack h,
    fun w hw => ?_⟩
  rcases exec_stack_cases h with e | e <;> rw [e] at hw
  · exact hentries w hw
  · rcases List.mem_or_eq_of_mem_set hw with hw | rfl
    · exact hentries w hw
    · exact hpc

/-! ### One `step()` call -/

theorem advancePc_keeps_dataInv {s : State} (hs : s.DataInv) (hpc : s.pc.toNat ≤ 0xFFE) :
    (s.setPc (s.pc + 2)).DataInv := by
  obtain ⟨hmem, hstack, -, hentries⟩ := hs
  refine ⟨hmem, hstack, ?_, hentries⟩
  rw [State.setPc_pc, pc_add_two_toNat (hpc.trans (by decide))]
  omega

theorem stepCall_keeps_dataInv {s u : State} (hs : s.DataInv) (h : s.stepCall = .next u) : u.DataInv := by
  rcases s.stepCall_cases with ⟨_, e⟩ | ⟨hpc, _, e⟩ | ⟨i, t, hpc, _, hexec, e⟩ <;> rw [h] at e <;> cases e
  · exact hs.congr rfl rfl rfl rfl rfl
  · exact (advancePc_keeps_dataInv hs hpc).congr rfl rfl rfl rfl rfl
  · refine exec_keeps_dataInv (advancePc_keeps_dataInv hs hpc) ?_ hexec
    rw [State.setPc_pc, pc_add_two_toNat (hpc.trans (by decide))]
    omega

/-! ### The start and the end of a tick -/

theorem beginTick_keeps_dataInv {s : State} (hs : s.DataInv) : s.beginTick.DataInv :=
  hs.congr s.beginTick_cfg s.beginTick_mem s.beginTick_stack s.beginTick_sp s.beginTick_pc

theorem resumeAttempt_keeps_dataInv {s : State} (hs : s.DataInv) (d : Reg) : (s.resumeAttempt d).DataInv :=
  hs.congr (s.resumeAttempt_cfg d) (s.resumeAttempt_mem d) (s.resumeAttempt_stack d) (s.resumeAttempt_sp d)
    (resumeAttempt_pc s d)

/-- The end of a tick brings the invariant back, whatever the engine has become. -/
theorem endTick_meets_inv {s : State} (hs : s.DataInv) (hactive : s.sched = .active) : s.endTick.Inv := by
  rw [State.endTick_eq]
  obtain ⟨hmem, hstack, hpc⟩ := hs
  refine ⟨hmem, hstack, .inl rfl, ?_, hpc⟩
  cases h : s.eng.isHalted <;> simp [State.StoppedIffHalted, h, hactive]

theorem afterStepCall_meets_inv {s : State} (hs : s.DataInv) (hactive : s.sched = .active) : s.afterStepCall.Inv := by
  rcases s.afterStepCall_cases with ⟨heng, hbatch, e⟩ | ⟨_, e⟩ <;> rw [e]
  · obtain ⟨hmem, hstack, hpc⟩ := hs
    refine ⟨hmem, hstack, .inr ⟨heng, hbatch⟩, ?_, hpc⟩
    simp [State.StoppedIffHalted, hactive, heng, Engine.isHalted]
  · exact endTick_meets_inv hs hactive

/-- Settles O60: a `step()` call keeps memory, stack and `PC` in bounds, and the end of a tick sets the scheduler. -/
theorem everyStepKeepsTheInvariant : Obligations.EveryStepKeepsTheInvariant := by
  intro s t ⟨hmem, hstack, _, _, hpc⟩ hstep
  have hdata : s.beginTick.DataInv := beginTick_keeps_dataInv ⟨hmem, hstack, hpc⟩
  obtain ⟨hactive, ⟨_, _, u, hu, rfl⟩ | ⟨_, _, rfl⟩ | ⟨d, _, rfl⟩ | ⟨r, _, rfl⟩⟩ := step_cases hstep
  · obtain ⟨-, hsched, -⟩ := stepCall_beginTick_frame hu
    exact afterStepCall_meets_inv (stepCall_keeps_dataInv hdata hu) (hsched.trans hactive)
  · exact endTick_meets_inv hdata (s.beginTick_sched.trans hactive)
  · exact endTick_meets_inv (resumeAttempt_keeps_dataInv hdata d)
      (by rw [State.resumeAttempt_sched, State.beginTick_sched, hactive])
  · exact endTick_meets_inv hdata (s.beginTick_sched.trans hactive)

/-! ### The load -/

theorem initial_meets_inv (cfg : Config) : (State.initial cfg).Inv := by
  have hpc : (0x200 : Word).toNat ≤ 0x10FE := by decide
  refine ⟨⟨.nil, nofun⟩, ⟨List.length_replicate, Nat.zero_le _⟩, .inl rfl, ⟨nofun, nofun⟩, hpc,
    fun w hw => ?_⟩
  rw [List.eq_of_mem_replicate hw]
  decide

/-- Settles O58: the state after reset is the load of an empty ROM. -/
theorem resetMeetsTheInvariant : Obligations.ResetMeetsTheInvariant := initial_meets_inv defaultConfig

/-- A load stores the ROM, if it fits, and takes the inputs. -/
theorem load_ok {cfg : Config} {inputs : List (Option InputEvent)} {rom : List Byte} {s : State}
    (h : load cfg inputs rom = .ok s) :
    rom.length ≤ romMax ∧
      s = { (State.storeBytes programBase rom (State.initial cfg)).1 with inputs := inputs } := by
  unfold load at h
  split at h
  · cases h
  · cases h
    exact ⟨Nat.not_lt.mp ‹_›, rfl⟩

/-- A load leaves everything but memory and the inputs at its load value. -/
theorem load_frame {cfg : Config} {inputs : List (Option InputEvent)} {rom : List Byte} {s : State}
    (h : load cfg inputs rom = .ok s) : s = { State.initial cfg with mem := s.mem, inputs := inputs } := by
  obtain ⟨-, e⟩ := load_ok h
  rw [State.storeBytes_frame] at e
  rw [e]

/-- Settles O59: the stores of a load keep memory canonical, and the rest is as at reset. -/
theorem loadMeetsTheInvariant : Obligations.LoadMeetsTheInvariant := by
  intro cfg inputs rom s h
  obtain ⟨hmem, hrest⟩ := initial_meets_inv cfg
  have hcanonical : s.MemCanonical := by
    have hstored := State.storeBytes_keeps_wf programBase rom _ hmem
    rw [State.storeBytes_frame] at hstored
    obtain ⟨-, rfl⟩ := load_ok h
    rw [State.storeBytes_frame]
    exact hstored
  rw [load_frame h] at hcanonical ⊢
  exact ⟨hcanonical, hrest⟩

end Sys2Proof.Machine
end

section
/-! PROOF. 20_memory.md and 42_index_memory.md: the bytes of memory, `I`, and the transfers through it. -/

namespace Sys2Proof.Machine

/-! ### One byte -/

theorem State.memRead_congr {s t : State} {a : Nat} (h : t.byteAt a = s.byteAt a) : t.memRead a = s.memRead a := by
  rw [State.memRead, State.memRead, h]

/-- Settles O29: a write inside the space is read back alone, and outside it both accesses are refused. -/
theorem memoryReadsWhatWasWritten : Obligations.MemoryReadsWhatWasWritten := by
  intro s a b
  refine ⟨fun ha => ?_, fun ha => ⟨s.memWrite_of_gt ha b, s.memRead_of_gt ha⟩⟩
  obtain ⟨t, hwrite, hframe, hbytes, -⟩ := s.memWrite_spec ha b
  refine ⟨t, hwrite, ?_, fun c hc => State.memRead_congr ?_, hframe⟩
  · rw [t.memRead_of_le ha, hbytes, if_pos rfl]
  · rw [hbytes, if_neg hc]

/-! ### The writers of `I` -/

/-- Settles O27: each of the three meanings is one write of `I`. -/
theorem indexWritersSetOnlyI : Obligations.IndexWritersSetOnlyI := by
  intro nnn x s
  refine ⟨⟨_, rfl, zextAddr_toNat nnn, onlyIndex_setI s _⟩, ⟨_, rfl, ?_, onlyIndex_setI s _⟩,
    ⟨_, rfl, onlyIndex_setI s _, glyphAddr_toNat _ _⟩⟩
  rw [State.setI_i, BitVec.toNat_add, zextByte_toNat]

/-- Settles O28: `I` is `5 * g` whether or not the digit is masked, and the five bytes from there lie in memory. -/
theorem glyphPointerFindsTheGlyph : Obligations.GlyphPointerFindsTheGlyph := by
  intro x g s hdigit hbytes
  refine ⟨_, rfl, fun r => ?_⟩
  have hi : (glyphAddr s.cfg.fontIndexMask (s.getV x)).toNat = 5 * g.val := by
    rw [glyphAddr_toNat, hdigit, Nat.mod_eq_of_lt g.isLt, ite_self]
  have haddr : (s.setI (glyphAddr s.cfg.fontIndexMask (s.getV x))).dataAddr r.val = 5 * g.val + r.val := by
    rw [State.dataAddr, State.setI_i, hi]
  have hin : 5 * g.val + r.val ≤ addrMax := by simp only [addrMax]; omega
  rw [haddr, State.memRead_of_le _ hin, State.byteAt_setI, hbytes r]

/-! ### A run of stores, and what follows it -/

theorem State.storeBytes_eq_completed {a : Nat} {bs : List Byte} (s : State) (h : a + bs.length ≤ addrMax + 1) :
    State.storeBytes a bs s = ((State.storeBytes a bs s).1, none) :=
  Prod.ext rfl (State.storeBytes_completes a bs s h)

theorem State.storeBytes_eq_stopped {a : Nat} {bs : List Byte} (s : State) (hne : bs ≠ [])
    (h : addrMax + 1 < a + bs.length) :
    State.storeBytes a bs s = ((State.storeBytes a bs s).1, some (max a (addrMax + 1))) :=
  Prod.ext rfl (State.storeBytes_stops a bs s hne h)

/-- A halt after a run of stores: its record is that of the state before the run, and nothing else but memory
changes. -/
theorem haltInstr_of_memFrame {s u : State} (h : u = { s with mem := u.mem }) (i : Instr) (cause : HaltCause)
    (f : Option Nat) : u.haltInstr i cause f = { s with mem := u.mem, eng := haltOf s i cause f } := by
  rw [h]; rfl

/-- A write of `I` after a run of stores. -/
theorem setI_of_memFrame {s u : State} (h : u = { s with mem := u.mem }) (w : Word) :
    u.setI w = { s with mem := u.mem, i := w } := by
  rw [h]; rfl

/-! ### FX33 -/

/-- The digits of a byte, as numbers. -/
theorem bcdDigits_toNat (b : Byte) {k : Nat} (hk : k < (bcdDigits b).length) :
    (bcdDigits b)[k].toNat = [b.toNat / 100, b.toNat / 10 % 10, b.toNat % 10].getD k 0 := by
  have hb := b.isLt
  have hk3 : k < 3 := hk
  interval_cases k <;> simp [bcdDigits] <;> omega

theorem execLdBVx_completes (x : Reg) {s : State} (h : s.dataAddr 2 ≤ 0xFFF) :
    exec (.ldBVx x) s = .next (State.storeBytes (s.dataAddr 0) (bcdDigits (s.getV x)) s).1 := by
  have hfits : s.dataAddr 0 + (bcdDigits (s.getV x)).length ≤ addrMax + 1 := Nat.succ_le_succ h
  rw [exec, execLdBVx, State.storeBytes_eq_completed s hfits]

theorem execLdBVx_stops (x : Reg) {s : State} (h : 0xFFF < s.dataAddr 2) :
    exec (.ldBVx x) s = .next ((State.storeBytes (s.dataAddr 0) (bcdDigits (s.getV x)) s).1.haltInstr (.ldBVx x)
      .memoryOutOfRange (some (max (s.dataAddr 0) 0x1000))) := by
  have hpast : addrMax + 1 < s.dataAddr 0 + (bcdDigits (s.getV x)).length := Nat.succ_lt_succ h
  have hne : bcdDigits (s.getV x) ≠ [] := List.cons_ne_nil _ _
  rw [exec, execLdBVx, State.storeBytes_eq_stopped s hne hpast]
  rfl

/-- The digits inside memory are stored. -/
theorem bcdDigits_stored (x : Reg) (s : State) {k : Nat} (hk : k < 3) (h : s.dataAddr k ≤ 0xFFF) :
    ((State.storeBytes (s.dataAddr 0) (bcdDigits (s.getV x)) s).1.byteAt (s.dataAddr k)).toNat =
      [(s.getV x).toNat / 100, (s.getV x).toNat / 10 % 10, (s.getV x).toNat % 10].getD k 0 := by
  have hlen : k < (bcdDigits (s.getV x)).length := hk
  have hbyte : (State.storeBytes (s.dataAddr 0) (bcdDigits (s.getV x)) s).1.byteAt (s.dataAddr k) = _ :=
    State.storeBytes_stored (s.dataAddr 0) _ s hlen h
  rw [hbyte, bcdDigits_toNat]

/-- Settles O30: the run of stores completes. -/
theorem bcdStoresThreeDigits : Obligations.BcdStoresThreeDigits := by
  intro x s h
  have hin : ∀ k, k < 3 → s.dataAddr k ≤ 0xFFF := fun k hk =>
    (Nat.add_le_add_left (Nat.le_of_lt_succ hk) _).trans h
  have hdigit {k : Nat} (hk : k < 3) := bcdDigits_stored x s hk (hin k hk)
  refine ⟨_, execLdBVx_completes x h, State.storeBytes_frame _ _ _, hdigit (k := 0) (by decide),
    hdigit (k := 1) (by decide), hdigit (k := 2) (by decide), fun a ha => ?_⟩
  exact State.storeBytes_other _ _ _ (ha.imp_right fun hgt => .inl hgt)

/-- Settles O31: the run of stores stops at the first address past the end. -/
theorem bcdHaltsAtTheFirstByteOutOfRange : Obligations.BcdHaltsAtTheFirstByteOutOfRange := by
  intro x s h
  refine ⟨_, execLdBVx_stops x h, ?_, ?_, fun k hk hin => bcdDigits_stored x s hk hin, fun a ha => ?_⟩
  · rw [haltInstr_of_memFrame (State.storeBytes_frame _ _ _)]
  · rw [haltInstr_of_memFrame (State.storeBytes_frame _ _ _)]
  · exact State.storeBytes_other _ _ _ (ha.imp_right .inr)

/-! ### FX55 -/

theorem storedRegs_length (x : Reg) (s : State) : ((regsUpTo x).map s.getV).length = x.val + 1 := by
  rw [List.length_map, regsUpTo_length]

theorem execLdMemVx_completes (x : Reg) {s : State} (h : s.dataAddr x.val ≤ 0xFFF) :
    exec (.ldMemVx x) s =
      .next ((State.storeBytes (s.dataAddr 0) ((regsUpTo x).map s.getV) s).1.setI (s.indexPast x)) := by
  have hfits : s.dataAddr 0 + ((regsUpTo x).map s.getV).length ≤ addrMax + 1 := by
    rw [storedRegs_length]; exact Nat.succ_le_succ h
  rw [exec, execLdMemVx, State.storeBytes_eq_completed s hfits]

theorem execLdMemVx_stops (x : Reg) {s : State} (h : 0xFFF < s.dataAddr x.val) :
    exec (.ldMemVx x) s = .next ((State.storeBytes (s.dataAddr 0) ((regsUpTo x).map s.getV) s).1.haltInstr
      (.ldMemVx x) .memoryOutOfRange (some (max (s.dataAddr 0) 0x1000))) := by
  have hpast : addrMax + 1 < s.dataAddr 0 + ((regsUpTo x).map s.getV).length := by
    rw [storedRegs_length]; exact Nat.succ_lt_succ h
  rw [exec, execLdMemVx, State.storeBytes_eq_stopped s (by simpa using regsUpTo_ne_nil x) hpast]
  rfl

/-- The registers whose bytes lie inside memory are stored. -/
theorem regsUpTo_stored (x : Reg) (s : State) {r : Reg} (hr : r ≤ x) (h : s.dataAddr r.val ≤ 0xFFF) :
    (State.storeBytes (s.dataAddr 0) ((regsUpTo x).map s.getV) s).1.byteAt (s.dataAddr r.val) = s.getV r := by
  obtain ⟨hk, hat⟩ := regsUpTo_at hr
  have hlen : r.val < ((regsUpTo x).map s.getV).length := by rwa [List.length_map]
  have hbyte : (State.storeBytes (s.dataAddr 0) ((regsUpTo x).map s.getV) s).1.byteAt (s.dataAddr r.val) = _ :=
    State.storeBytes_stored (s.dataAddr 0) _ s hlen h
  rw [hbyte, List.getElem_map, hat]

/-- Settles O32: the run of stores completes, and `I` is then written. -/
theorem blockStoreWritesRegistersAndAdvancesI : Obligations.BlockStoreWritesRegistersAndAdvancesI := by
  intro x s h
  refine ⟨_, execLdMemVx_completes x h, ?_, indexPast_toNat s x, fun r hr => ?_, fun a ha => ?_⟩
  · rw [setI_of_memFrame (State.storeBytes_frame _ _ _)]
  · exact regsUpTo_stored x s hr ((Nat.add_le_add_left hr _).trans h)
  · refine State.storeBytes_other _ _ _ (ha.imp_right fun hgt => .inl ?_)
    rw [storedRegs_length]
    exact hgt

/-- Settles O33: the run of stores stops at the first address past the end. -/
theorem blockStoreHaltsAtTheFirstByteOutOfRange : Obligations.BlockStoreHaltsAtTheFirstByteOutOfRange := by
  intro x s h
  refine ⟨_, execLdMemVx_stops x h, ?_, ?_, fun r hr hin => regsUpTo_stored x s hr hin, fun a ha => ?_⟩
  · rw [haltInstr_of_memFrame (State.storeBytes_frame _ _ _)]
  · rw [haltInstr_of_memFrame (State.storeBytes_frame _ _ _)]
  · exact State.storeBytes_other _ _ _ (ha.imp_right .inr)

/-! ### FX65 -/

theorem execLdVxMem_completes (x : Reg) {s : State} (h : s.dataAddr x.val ≤ 0xFFF) :
    exec (.ldVxMem x) s = .next ((State.loadRegs (s.dataAddr 0) (regsUpTo x) s).1.setI (s.indexPast x)) := by
  have hfits : s.dataAddr 0 + (regsUpTo x).length ≤ addrMax + 1 := by
    rw [regsUpTo_length]; exact Nat.succ_le_succ h
  have hload : State.loadRegs (s.dataAddr 0) (regsUpTo x) s =
      ((State.loadRegs (s.dataAddr 0) (regsUpTo x) s).1, none) :=
    Prod.ext rfl (State.loadRegs_completes _ s (regsUpTo_nodup x) hfits)
  rw [exec, execLdVxMem, hload]

theorem execLdVxMem_stops (x : Reg) {s : State} (h : 0xFFF < s.dataAddr x.val) :
    exec (.ldVxMem x) s = .next ((State.loadRegs (s.dataAddr 0) (regsUpTo x) s).1.haltInstr (.ldVxMem x)
      .memoryOutOfRange (some (max (s.dataAddr 0) 0x1000))) := by
  have hpast : addrMax + 1 < s.dataAddr 0 + (regsUpTo x).length := by
    rw [regsUpTo_length]; exact Nat.succ_lt_succ h
  have hload : State.loadRegs (s.dataAddr 0) (regsUpTo x) s =
      ((State.loadRegs (s.dataAddr 0) (regsUpTo x) s).1, some (max (s.dataAddr 0) 0x1000)) :=
    Prod.ext rfl (State.loadRegs_stops _ s (regsUpTo_nodup x) (regsUpTo_ne_nil x) hpast)
  rw [exec, execLdVxMem, hload]

/-- A write of `I` after a run of loads. -/
theorem setI_of_regsFrame {s u : State} (h : u = { s with v := u.v }) (w : Word) :
    u.setI w = { s with v := u.v, i := w } := by
  rw [h]; rfl

/-- A halt after a run of loads: its record is that of the state before the run, and nothing else but registers
changes. -/
theorem haltInstr_of_regsFrame {s u : State} (h : u = { s with v := u.v }) (i : Instr) (cause : HaltCause)
    (f : Option Nat) : u.haltInstr i cause f = { s with v := u.v, eng := haltOf s i cause f } := by
  rw [h]; rfl

/-- Settles O34: the run of loads completes, and `I` is then written. -/
theorem blockLoadReadsRegistersAndAdvancesI : Obligations.BlockLoadReadsRegistersAndAdvancesI := by
  intro x s h
  have hframe := State.loadRegs_frame (s.dataAddr 0) s (regsUpTo_nodup x)
  have hreg := State.loadRegs_upTo (s.dataAddr 0) x s
  refine ⟨_, execLdVxMem_completes x h, ?_, fun a => ?_, indexPast_toNat s x, fun r hr => ?_, fun r hr => ?_⟩
  · rw [setI_of_regsFrame hframe]
  · rw [setI_of_regsFrame hframe]; rfl
  · exact (hreg r).trans (if_pos ⟨hr, (Nat.add_le_add_left hr _).trans h⟩)
  · exact (hreg r).trans (if_neg fun ⟨hle, _⟩ => hle.not_gt hr)

/-- Settles O35: the run of loads stops at the first address past the end. -/
theorem blockLoadHaltsAtTheFirstByteOutOfRange : Obligations.BlockLoadHaltsAtTheFirstByteOutOfRange := by
  intro x s h
  have hframe := State.loadRegs_frame (s.dataAddr 0) s (regsUpTo_nodup x)
  refine ⟨_, execLdVxMem_stops x h, ?_, ?_, fun a => ?_, State.loadRegs_upTo (s.dataAddr 0) x s⟩
  · rw [haltInstr_of_regsFrame hframe]
  · rw [haltInstr_of_regsFrame hframe]
  · rw [haltInstr_of_regsFrame hframe]; rfl

end Sys2Proof.Machine
end

section
/-! PROOF. What no instruction touches, for all instructions at once. -/

namespace Sys2Proof.Machine

theorem sameMemory_of_mem_eq {s t : State} (hcfg : t.cfg = s.cfg) (hmem : t.mem = s.mem) : SameMemory s t := by
  intro a
  rw [State.byteAt, State.byteAt, hcfg, hmem]

/-- Settles O26: the registers of every instruction's frame are those of the table. -/
theorem onlyTheTablesRegistersAreWritten : Obligations.OnlyTheTablesRegistersAreWritten :=
  fun _ _ _ h => (exec_frame h).regs

/-- Settles O36: memory, the frame buffer and `I` in every instruction's frame. -/
theorem onlyTheNamedWritersTouchMemoryDisplayAndIndex : Obligations.OnlyTheNamedWritersTouchMemoryDisplayAndIndex := by
  intro i s t h
  have hframe := exec_frame h
  refine ⟨fun hi => ?_, hframe.fb, hframe.index⟩
  exact ⟨sameMemory_of_mem_eq hframe.cfg (hframe.mem hi), hframe.mem hi⟩

/-- Settles O38: the parts of the state that are the scheduler's or a peripheral's in every instruction's frame. -/
theorem instructionsLeaveSchedulerKeyboardAndTimers : Obligations.InstructionsLeaveSchedulerKeyboardAndTimers := by
  intro i s t h
  have f := exec_frame h
  exact ⟨f.cfg, f.soundOn, f.sched, f.batch, f.keysDown, f.lastKey, f.inputs, f.dt, f.st, f.drawCount⟩

end Sys2Proof.Machine
end

section
/-! PROOF. 44_display.md: 00E0 and DXYN. -/

namespace Sys2Proof.Machine

/-- Settles O39: the meaning of 00E0 is one clear of the frame buffer. -/
theorem clearScreenUnsetsEveryPixel : Obligations.ClearScreenUnsetsEveryPixel := fun s =>
  ⟨rfl, _, rfl, s.pixel_displayClear, fun _ _ => rfl, fun _ => rfl, rfl⟩

/-! ### The drawing of a sprite's rows -/

/-- The state after DXYN's drawing and whether a set pixel was toggled: of the `n` rows at `I` those inside memory are
drawn, with VF cleared first. -/
def State.drawn (s : State) (x y : Reg) (n : Nat) : State × Bool :=
  (drawRows (s.dataAddr 0) (s.drawCoord x) (s.drawCoord y) n 0 (s.setV vf 0, false)).1

/-- How many of `n` rows at `I` lie inside memory. -/
def State.rowsInside (s : State) (n : Nat) : Nat := min n (0x1000 - s.dataAddr 0)

section
variable (s : State) (x y : Reg) {n : Nat}

theorem State.drawn_frame (hn : n ≤ 32) :
    (s.drawn x y n).1 = { s with v := (s.setV vf 0).v, fb := (s.drawn x y n).1.fb } := by
  rw [State.drawn, (drawRows_spec _ _ _ n 0 (s.setV vf 0) false (by omega)).1]
  rfl

/-- The cover of the rows inside memory, in the terms claims use. -/
theorem State.rowsCover_eq (hn : n ≤ 32) (px : Fin 64) (py : Fin 32) :
    rowsCover (s.setV vf 0) (s.dataAddr 0) (s.drawCoord x) (s.drawCoord y) (min n (addrMax + 1 - (s.dataAddr 0 + 0))) 0
      px py = s.spriteCovers (s.coordOf x) (s.coordOf y) (s.rowsInside n) px py := by
  have hle : s.rowsInside n ≤ 32 := (Nat.min_le_left _ _).trans hn
  rw [State.drawCoord_eq, State.drawCoord_eq]
  exact rowsCover_eq_spriteCovers s (s.coordOf x) (s.coordOf y) (s.rowsInside n) hle px py

theorem State.pixel_drawn (hn : n ≤ 32) (px : Fin 64) (py : Fin 32) :
    (s.drawn x y n).1.pixel px py =
      xor (s.pixel px py) (s.spriteCovers (s.coordOf x) (s.coordOf y) (s.rowsInside n) px py) := by
  rw [State.drawn, (drawRows_spec _ _ _ n 0 (s.setV vf 0) false (by omega)).2.1, State.rowsCover_eq s x y hn,
    State.pixel_setV]

theorem State.drawn_collides_iff (hn : n ≤ 32) :
    (s.drawn x y n).2 = true ↔ ∃ px py,
      s.pixel px py = true ∧ s.spriteCovers (s.coordOf x) (s.coordOf y) (s.rowsInside n) px py = true := by
  rw [State.drawn, (drawRows_spec _ _ _ n 0 (s.setV vf 0) false (by omega)).2.2.1]
  simp only [State.rowsCover_eq s x y hn, State.pixel_setV, Bool.false_eq_true, false_or, and_comm]

/-- VF is cleared before anything is drawn. -/
theorem State.getV_drawn (hn : n ≤ 32) (r : Reg) : (s.drawn x y n).1.getV r = (s.setV vf 0).getV r := by
  rw [State.drawn_frame s x y hn]; rfl

end

/-! ### The two outcomes of DXYN -/

/-- The report of a collision in VF. -/
def State.reportCollision (s : State) (c : Bool) : State := if c then s.setV vf 1 else s

@[simp] theorem State.pixel_reportCollision (s : State) (c : Bool) (px : Fin 64) (py : Fin 32) :
    (s.reportCollision c).pixel px py = s.pixel px py := by
  cases c <;> rfl

theorem State.reportCollision_frame (s : State) (c : Bool) :
    s.reportCollision c = { s with v := (s.reportCollision c).v } := by
  cases c <;> rfl

theorem State.getV_vf_reportCollision (s : State) (c : Bool) :
    (s.reportCollision c).getV vf = if c then 1 else s.getV vf := by
  cases c
  · rfl
  · exact s.getV_setV_same vf 1

theorem State.getV_reportCollision_ne (s : State) (c : Bool) {r : Reg} (hr : r ≠ vf) :
    (s.reportCollision c).getV r = s.getV r := by
  cases c
  · rfl
  · exact s.getV_setV_ne 1 (Ne.symm hr)

/-- The answer of the rows: the first address out of range, if there is one. -/
theorem State.drawRows_answer (s : State) (x y : Reg) {n : Nat} (hn : n ≤ 32) :
    (drawRows (s.dataAddr 0) (s.drawCoord x) (s.drawCoord y) n 0 (s.setV vf 0, false)).2 =
      if n = 0 ∨ s.dataAddr 0 + n ≤ 0x1000 then none else some (max (s.dataAddr 0) 0x1000) :=
  (drawRows_spec _ _ _ n 0 (s.setV vf 0) false (by omega)).2.2.2

theorem nibble_le (n : Nibble) : n.toNat ≤ 32 := n.isLt.le.trans (by decide)

theorem execDrw_completes (x y : Reg) {n : Nibble} {s : State}
    (h : n.toNat = 0 ∨ s.dataAddr (n.toNat - 1) ≤ 0xFFF) :
    exec (.drwVxVyNibble x y n) s =
      .next ((s.drawn x y n.toNat).1.reportCollision (s.drawn x y n.toNat).2) := by
  have hfits : n.toNat = 0 ∨ s.dataAddr 0 + n.toNat ≤ 0x1000 := by simp only [State.dataAddr] at h ⊢; omega
  have hrows := s.drawRows_answer x y (nibble_le n)
  rw [if_pos hfits] at hrows
  have hdrawn : drawRows (s.dataAddr 0) (s.drawCoord x) (s.drawCoord y) n.toNat 0 (s.setV vf 0, false) =
      (s.drawn x y n.toNat, none) := Prod.ext rfl hrows
  rw [exec, execDrwVxVyNibble, hdrawn]
  rfl

theorem execDrw_stops (x y : Reg) {n : Nibble} {s : State} (hn : n.toNat ≠ 0) (h : 0xFFF < s.dataAddr (n.toNat - 1)) :
    exec (.drwVxVyNibble x y n) s =
      .next ((s.drawn x y n.toNat).1.haltInstr (.drwVxVyNibble x y n) .memoryOutOfRange
        (some (max (s.dataAddr 0) 0x1000))) := by
  have hpast : ¬ (n.toNat = 0 ∨ s.dataAddr 0 + n.toNat ≤ 0x1000) := by simp only [State.dataAddr] at h ⊢; omega
  have hrows := s.drawRows_answer x y (nibble_le n)
  rw [if_neg hpast] at hrows
  have hdrawn : drawRows (s.dataAddr 0) (s.drawCoord x) (s.drawCoord y) n.toNat 0 (s.setV vf 0, false) =
      (s.drawn x y n.toNat, some (max (s.dataAddr 0) 0x1000)) := Prod.ext rfl hrows
  rw [exec, execDrwVxVyNibble, hdrawn]

/-! ### The statements -/

/-- Settles O40: every row lies inside memory, so the rows drawn are the sprite's. -/
theorem drawXorsTheSpriteAndReportsCollision : Obligations.DrawXorsTheSpriteAndReportsCollision := by
  intro x y n s h
  have hn := nibble_le n
  have hinside : s.rowsInside n.toNat = n.toNat := by simp only [State.rowsInside, State.dataAddr] at h ⊢; omega
  have hvf := (s.drawn x y n.toNat).1.getV_vf_reportCollision (s.drawn x y n.toNat).2
  have hcollides := State.drawn_collides_iff s x y hn
  rw [hinside] at hcollides
  refine ⟨_, execDrw_completes x y h, fun px py => ?_, fun hset => ?_, fun hunset => ?_, fun r hr => ?_,
    fun a => ?_, ?_⟩
  · rw [State.pixel_reportCollision, State.pixel_drawn s x y hn, hinside]
  · rw [hvf, if_pos (hcollides.mpr hset)]
  · rw [hvf, if_neg (fun hc => hunset (hcollides.mp hc)), State.getV_drawn s x y hn, State.getV_setV_same]
  · have hr : r ≠ vf := List.ne_of_not_mem_cons hr
    rw [State.getV_reportCollision_ne _ _ hr, State.getV_drawn s x y hn, State.getV_setV_ne _ _ (Ne.symm hr)]
  · rw [State.reportCollision_frame, State.drawn_frame s x y hn]; rfl
  · rw [State.reportCollision_frame, State.drawn_frame s x y hn]

/-- Settles O41: only the rows before the end of memory are drawn, and no collision is reported. -/
theorem drawHaltsAtTheFirstRowOutOfRange : Obligations.DrawHaltsAtTheFirstRowOutOfRange := by
  intro x y n s hne h
  have hn := nibble_le n
  have hframe := State.drawn_frame s x y hn
  have hinside : s.rowsInside n.toNat = 0x1000 - s.dataAddr 0 := by
    simp only [State.rowsInside, State.dataAddr] at h ⊢; omega
  refine ⟨_, execDrw_stops x y hne h, ?_, fun px py => ?_, ?_, fun r hr => ?_, fun a => ?_, ?_⟩
  · rw [hframe]; rfl
  · rw [State.haltInstr_eq, State.pixel_setEng, State.pixel_drawn s x y hn, hinside]
  · rw [State.haltInstr_eq, State.getV_setEng, State.getV_drawn s x y hn, State.getV_setV_same]
  · have hr : r ≠ vf := List.ne_of_not_mem_cons hr
    rw [State.haltInstr_eq, State.getV_setEng, State.getV_drawn s x y hn, State.getV_setV_ne _ _ (Ne.symm hr)]
  · rw [hframe]; rfl
  · rw [hframe]; rfl

/-! ### The same sprite twice -/

/-- The place of a sprite depends on VF alone, and only where it is read. -/
theorem State.coordOf_congr {s t : State} {r : Reg} (hcfg : t.cfg = s.cfg) (hregs : SameRegsBut [vf] s t)
    (h : s.cfg.drawVfClearFirst = true ∨ r ≠ vf) : t.coordOf r = s.coordOf r := by
  rw [State.coordOf, State.coordOf, hcfg]
  by_cases hr : r = vf
  · have hfirst := h.resolve_right (not_not_intro hr)
    rw [if_pos ⟨hfirst, hr⟩, if_pos ⟨hfirst, hr⟩]
  · rw [hregs r (by simpa using hr)]

/-- A byte that is not 0 has a bit that is set. -/
theorem byte_ne_zero_iff (b : Byte) : b ≠ 0 ↔ ∃ k, k < 8 ∧ b.getLsbD k = true := by
  refine ⟨fun h => ?_, ?_⟩
  · by_contra hno
    refine h (BitVec.eq_of_getLsbD_eq fun k hk => ?_)
    simpa using fun hset => hno ⟨k, hk, hset⟩
  · rintro ⟨k, -, hset⟩ rfl
    simp at hset

/-- A sprite of at most 32 rows covers some pixel exactly when one of its rows has a bit set. -/
theorem State.spriteCovers_some_iff (s : State) (x0 y0 : Nat) {n : Nat} (hn : n ≤ 32) :
    (∃ px py, s.spriteCovers x0 y0 n px py = true) ↔ ∃ r, r < n ∧ s.byteAt (s.dataAddr r) ≠ 0 := by
  simp only [State.spriteCovers, Bool.and_eq_true, decide_eq_true_eq, byte_ne_zero_iff]
  constructor
  · rintro ⟨px, py, ⟨hcol, hrow⟩, hset⟩
    exact ⟨_, hrow, _, by omega, hset⟩
  · rintro ⟨r, hr, k, hk, hset⟩
    have hcol : ((screenCol (x0 + (7 - k))).val + 64 - x0 % 64) % 64 = 7 - k := by simp only [screenCol]; omega
    have hrow : ((screenRow (y0 + r)).val + 32 - y0 % 32) % 32 = r := by simp only [screenRow]; omega
    refine ⟨screenCol (x0 + (7 - k)), screenRow (y0 + r), ?_⟩
    rw [hcol, hrow, Nat.sub_sub_self (by omega)]
    exact ⟨⟨by omega, hr⟩, hset⟩

/-- A covered pixel is set after the toggle exactly when it was unset before. -/
theorem toggled_and_covered_iff (p c : Bool) : (xor p c = true ∧ c = true) ↔ (p = false ∧ c = true) := by
  cases p <;> cases c <;> decide

/-- Settles O42: the second draw is the first one again, and toggling a pixel twice restores it. -/
theorem drawingTwiceRestoresTheScreen : Obligations.DrawingTwiceRestoresTheScreen := by
  intro x y n s h
  obtain ⟨t, ht, hpix, -, -, hregs, hmem, hframe⟩ := drawXorsTheSpriteAndReportsCollision x y n s h
  have hcfg : t.cfg = s.cfg := by rw [hframe]
  have hi : t.i = s.i := by rw [hframe]
  refine ⟨t, ht, fun hplace => ?_, fun hx hy => ?_⟩
  · exact ⟨State.coordOf_congr hcfg hregs (hplace.imp_right And.left),
      State.coordOf_congr hcfg hregs (hplace.imp_right And.right)⟩
  have haddr : t.dataAddr = s.dataAddr := by funext k; rw [State.dataAddr, State.dataAddr, hi]
  obtain ⟨u, hu, hpix', hset, hunset, -⟩ := drawXorsTheSpriteAndReportsCollision x y n t (haddr ▸ h)
  simp only [hx, hy, State.spriteCovers_congr hmem hi, hpix, toggled_and_covered_iff] at hpix' hset hunset
  have hcollides : u.getV vf = 1 ↔ ∃ px py, s.pixel px py = false ∧
      s.spriteCovers (s.coordOf x) (s.coordOf y) n.toNat px py = true := by
    refine ⟨fun hone => by_contra fun hno => ?_, hset⟩
    exact absurd (hone.symm.trans (hunset hno)) (by decide)
  refine ⟨u, hu, State.fb_ext fun px py => ?_, hcollides, fun hblank => ?_⟩
  · rw [hpix', Bool.xor_assoc, Bool.xor_self, Bool.xor_false]
  · simp only [hcollides, hblank, true_and]
    exact s.spriteCovers_some_iff _ _ (nibble_le n)

end Sys2Proof.Machine
end

section
/-! PROOF. 30_encoding.md R59: the fetch, the instruction it leads to, and the step around them. -/

namespace Sys2Proof.Machine

/-! ### The outcomes of a `step()` call, by their conditions -/

/-- Bit 0 of `PC` is set exactly when `PC` is odd. -/
theorem getLsbD_zero_eq_odd (w : Word) : w.getLsbD 0 = decide (w.toNat % 2 = 1) := by
  rw [BitVec.getLsbD, Nat.testBit_zero]

/-- Whether the alignment check of a fetch lets `PC` pass. -/
theorem misaligned_eq_false_iff {s : State} :
    (s.cfg.oddPcHalts && s.pc.getLsbD 0) = false ↔ ¬ (s.cfg.oddPcHalts = true ∧ s.pc.toNat % 2 = 1) := by
  rw [getLsbD_zero_eq_odd, ← Bool.not_eq_true, Bool.and_eq_true, decide_eq_true_eq]

theorem stepCall_misaligned {s : State} (h : (s.cfg.oddPcHalts && s.pc.getLsbD 0) = true) :
    s.stepCall = .next (s.raiseHalt .misalignedFetch none s.pc none) := by
  rw [State.stepCall, State.fetch, if_pos h]

theorem stepCall_outOfRange {s : State} (h : (s.cfg.oddPcHalts && s.pc.getLsbD 0) = false)
    (hpc : 0xFFE < s.pc.toNat) : s.stepCall = .next (s.raiseHalt .fetchOutOfRange none s.pc none) := by
  have hrange : s.pc.toNat + 1 > addrMax := Nat.succ_lt_succ hpc
  rw [State.stepCall, State.fetch, if_neg (ne_true_of_eq_false h), if_pos hrange]

/-- A fetch that passes both checks dispatches the word at `PC`. -/
theorem stepCall_fetched {s : State} (h : (s.cfg.oddPcHalts && s.pc.getLsbD 0) = false) (hpc : s.pc.toNat ≤ 0xFFE) :
    s.stepCall = (s.setPc (s.pc + 2)).dispatch s.nextWord s.pc := by
  have hrange : ¬ s.pc.toNat + 1 > addrMax := Nat.not_lt.mpr (Nat.succ_le_succ hpc)
  rw [State.stepCall, State.fetch, if_neg (ne_true_of_eq_false h), if_neg hrange]
  rfl

theorem dispatch_decoded {s : State} {op addr : Word} {i : Instr} (h : decodeWord s.cfg.strict59 op = some i) :
    s.dispatch op addr = exec i s := by
  rw [State.dispatch, h]

theorem dispatch_unsupported {s : State} {op addr : Word} (h : decodeWord s.cfg.strict59 op = none) :
    s.dispatch op addr = .next (s.raiseHalt .unsupportedOpcode (some op) addr none) := by
  rw [State.dispatch, h]

/-! ### The statements -/

/-- Settles O8: the alignment check comes first, and each check raises its own halt. -/
theorem fetchHaltsInOrder : Obligations.FetchHaltsInOrder := by
  intro s
  refine ⟨fun hcfg hodd => ?_, fun heven hpc => ?_⟩
  · have hmis : (s.cfg.oddPcHalts && s.pc.getLsbD 0) = true := by
      rw [getLsbD_zero_eq_odd, hcfg, hodd]; rfl
    exact ⟨_, stepCall_misaligned hmis, onlyEngine_setEng s _, rfl⟩
  · exact ⟨_, stepCall_outOfRange (misaligned_eq_false_iff.mpr heven) hpc, onlyEngine_setEng s _, rfl⟩

/-- Settles O7: the `step()` call of the step passes the fetch and dispatches the decoded word. -/
theorem stepRunsTheDecodedInstruction : Obligations.StepRunsTheDecodedInstruction := by
  intro s i hactive heng hbatch hpc heven hdecode
  obtain ⟨t, ht⟩ := exec_completes i (s.beginTick.setPc (s.pc + 2))
  have haligned : (s.beginTick.cfg.oddPcHalts && s.beginTick.pc.getLsbD 0) = false := by
    rw [misaligned_eq_false_iff, State.beginTick_cfg, State.beginTick_pc]
    rintro ⟨hcfg, hodd⟩
    have := heven hcfg
    omega
  have hcall : s.beginTick.stepCall = .next t := by
    rw [stepCall_fetched haligned (by rwa [State.beginTick_pc]), State.nextWord_beginTick, State.beginTick_pc,
      dispatch_decoded (i := i) (by rwa [State.setPc_cfg, State.beginTick_cfg]), ht]
  rw [ht, step_running hactive heng hbatch hcall]

/-- Settles O9: a step of an active machine completes whatever its engine does. -/
theorem onlyAStoppedSchedulerStops : Obligations.OnlyAStoppedSchedulerStops := fun _ =>
  ⟨step_completes, step_stopped⟩

end Sys2Proof.Machine
end

section
/-! PROOF. 60_exceptions.md R126 to R133: the timers, the keyboard and the key wait. -/

namespace Sys2Proof.Machine

/-- Settles O48: `tick_timers()` is two counts and the sound level. -/
theorem tickTimersCountDown : Obligations.TickTimersCountDown := by
  intro s
  exact ⟨countDown_toNat s.dt, countDown_toNat s.st, decide_eq_true_iff, rfl⟩

/-- Bit `j` of the mask of key `k`. -/
theorem getLsbD_keyMask (k j : Key) : (BitVec.twoPow 16 k.val).getLsbD j.val = decide (j = k) := by
  simp [Fin.ext_iff, eq_comm]

/-- Settles O54: an event sets or clears the bit of its key, and a press latches it. -/
theorem keyEventsUpdateHeldKeysAndLatch : Obligations.KeyEventsUpdateHeldKeysAndLatch := by
  intro s k
  refine ⟨rfl, rfl, fun j => ?_, fun j => ?_, fun e => by cases e <;> rfl, rfl⟩
  · simp only [State.isPressed, State.handleEvent, BitVec.getLsbD_or, getLsbD_keyMask, Bool.or_comm]
  · simp only [State.isPressed, State.handleEvent, BitVec.getLsbD_and, BitVec.getLsbD_not, getLsbD_keyMask, j.isLt,
      decide_true, Bool.true_and, Bool.and_comm]

/-! ### The end of a tick -/

theorem State.afterStepCall_eng (s : State) : s.afterStepCall.eng = s.eng := by
  rcases s.afterStepCall_cases with ⟨_, _, e⟩ | ⟨_, e⟩ <;> rw [e]
  · rfl
  · exact s.endTick_eng

/-- Settles O50: the step ends its tick, so it leaves the end of the tick of the state its call left. -/
theorem haltingStepTicksTimersAndStops : Obligations.HaltingStepTicksTimersAndStops := by
  intro s u hactive heng hbatch hcall hlast
  obtain ⟨hcfg, hsched, hcount⟩ := stepCall_beginTick_frame hcall
  have hstep := step_running hactive heng hbatch hcall
  rw [afterStepCall_ends (by rwa [hcfg, hcount]), State.endTick_eq] at hstep
  refine ⟨_, hstep, countDown_toNat u.dt, countDown_toNat u.st, decide_eq_true_iff, rfl, fun hhalt => if_pos hhalt,
    fun hno => ?_, rfl⟩
  rw [if_neg (ne_true_of_eq_false hno), hsched, hactive]

/-! ### The key wait -/

/-- Settles O46: FX0A is one write of `ENG`, after which the tick ends; the resume takes the latch or does nothing. -/
theorem waitForKeySuspendsAndResumes : Obligations.WaitForKeySuspendsAndResumes := by
  intro x s
  refine ⟨rfl, ⟨_, rfl, rfl, onlyEngine_setEng s _, ?_, State.afterStepCall_eng _⟩, fun k hk => ?_,
    fun hnone => resumeAttempt_unlatched hnone x⟩
  · rw [afterStepCall_ends (s := s.setEng (.waitingForKey x)) (.inl nofun), State.endTick_batch]
  · rw [resumeAttempt_latched hk]
    refine ⟨rfl, ?_, rfl, fun r hr => ?_, fun _ => rfl, rfl⟩
    · rw [State.getV_setEng, State.getV_setV_same, keyByte_toNat]
    · have hr : x ≠ r := fun e => hr (e ▸ List.mem_singleton_self x)
      rw [State.getV_setEng, State.getV_setV_ne _ _ hr]; rfl

end Sys2Proof.Machine
end

section
/-! PROOF. 60_exceptions.md R136, R137: the steps of a tick add up to the tick. -/

namespace Sys2Proof.Machine

theorem Engine.isRunning_iff {e : Engine} : e.isRunning = true ↔ e = .running := by
  cases e <;> simp [Engine.isRunning]

/-- The batch goes on after a call that leaves the engine running. -/
theorem batchLoop_running {m : Nat} {s u : State} (h : s.stepCall = .next u) (hu : u.eng = .running) :
    State.batchLoop (m + 1) s = State.batchLoop m u.countStep := by
  rw [State.batchLoop, h]
  exact if_pos (Engine.isRunning_iff.mpr hu)

/-- The batch ends after a call that leaves the engine waiting or halted. -/
theorem batchLoop_ends {m : Nat} {s u : State} (h : s.stepCall = .next u) (hu : u.eng ≠ .running) :
    State.batchLoop (m + 1) s = .next u.countStep := by
  rw [State.batchLoop, h]
  exact if_neg fun hrun => hu (Engine.isRunning_iff.mp hrun)

/-- `k` steps from `s` lie in one batch: the steps before the last one leave a running engine and count the calls. -/
def BatchSteps (s : State) (k : Nat) : Prop :=
  ∀ j u, 0 < j → j < k → core.run j s = .next u → u.batch = s.batch + j ∧ u.eng = .running

theorem batchSteps_one (s : State) : BatchSteps s 1 := fun _ _ _ _ => by omega

theorem BatchSteps.succ {s t : State} {k : Nat} (hstep : step s = .next t) (hbatch : t.batch = s.batch + 1)
    (heng : t.eng = .running) (h : BatchSteps t k) : BatchSteps s (k + 1) := by
  intro j u hj hjk hrun
  obtain ⟨j, rfl⟩ := Nat.exists_eq_succ_of_ne_zero hj.ne'
  rw [run_succ hstep] at hrun
  rcases Nat.eq_zero_or_pos j with rfl | hpos
  · cases hrun
    exact ⟨hbatch, heng⟩
  · obtain ⟨hu, hrunning⟩ := h j u hpos (by omega) hrun
    exact ⟨by omega, hrunning⟩

/-- From any call of a running tick, the steps left reach the end of the tick of what the batch loop leaves: by
induction on the calls left after this one. -/
theorem steps_of_batchLoop (m : Nat) : ∀ s : State, s.sched = .active → s.eng = .running →
    s.batch + (m + 1) = s.cfg.batchSize →
    ∃ k v, k ≤ m ∧ State.batchLoop (m + 1) s.beginTick = .next v ∧ core.run (k + 1) s = .next v.endTick ∧
      BatchSteps s (k + 1) ∧ (k < m → v.eng ≠ .running) := by
  induction m with
  | zero =>
    intro s hactive heng hsize
    obtain ⟨u, hu⟩ := s.beginTick.stepCall_completes
    obtain ⟨hcfg, -, hbatch⟩ := stepCall_beginTick_frame hu
    have hlast : u.cfg.batchSize ≤ u.batch + 1 := by rw [hcfg, hbatch]; omega
    have hstep := step_running hactive heng (by omega) hu
    rw [afterStepCall_ends (.inr hlast), ← State.endTick_countStep] at hstep
    refine ⟨0, u.countStep, le_rfl, ?_, run_one hstep, batchSteps_one s, nofun⟩
    by_cases hrun : u.eng = .running
    · rw [batchLoop_running hu hrun]; rfl
    · exact batchLoop_ends hu hrun
  | succ m ih =>
    intro s hactive heng hsize
    obtain ⟨u, hu⟩ := s.beginTick.stepCall_completes
    obtain ⟨hcfg, hsched, hbatch⟩ := stepCall_beginTick_frame hu
    have hstep := step_running hactive heng (by omega) hu
    by_cases hrun : u.eng = .running
    · have hleft : u.batch + 1 < u.cfg.batchSize := by rw [hcfg, hbatch]; omega
      rw [afterStepCall_continues hrun hleft] at hstep
      have hnext : u.countStep.batch = s.batch + 1 := congrArg (· + 1) hbatch
      have hlater : u.countStep.beginTick = u.countStep := State.beginTick_later _ (by omega)
      obtain ⟨k, v, hk, hloop, hrunk, hsteps, hends⟩ := ih u.countStep (hsched.trans hactive) hrun
        (by rw [hnext, State.countStep_cfg, hcfg]; omega)
      rw [hlater] at hloop
      refine ⟨k + 1, v, by omega, (batchLoop_running hu hrun).trans hloop, (run_succ hstep _).trans hrunk,
        hsteps.succ hstep hnext hrun, fun hlt => hends (by omega)⟩
    · rw [afterStepCall_ends (.inl hrun), ← State.endTick_countStep] at hstep
      exact ⟨0, u.countStep, Nat.zero_le _, batchLoop_ends hu hrun, run_one hstep, batchSteps_one s, fun _ => hrun⟩

/-- The tick of an active scheduler, from what its body leaves. -/
theorem tick_of_tickBody {s v : State} (hactive : s.sched = .active) (hbatch : s.batch = 0)
    (h : s.beginTick.tickBody = .next v) : s.tick = .next v.endTick := by
  rw [State.beginTick, if_pos hbatch] at h
  rw [State.tick, hactive]
  simp only [h]

/-- Settles O47: a running tick is the batch loop, cut into its calls; any other tick is one step. -/
theorem stepsAddUpToTheTick : Obligations.StepsAddUpToTheTick := by
  intro s hactive hbatch hsize
  cases heng : s.eng with
  | running =>
    obtain ⟨m, hm⟩ := Nat.exists_eq_succ_of_ne_zero hsize.ne'
    obtain ⟨k, v, hk, hloop, hrun, hsteps, hends⟩ := steps_of_batchLoop m s hactive heng (by omega)
    have hbody : s.beginTick.tickBody = .next v := by
      rw [State.tickBody, State.beginTick_eng, heng, State.beginTick_cfg, hm]
      exact hloop
    refine ⟨k + 1, v.endTick, by omega, by omega, tick_of_tickBody hactive hbatch hbody, hrun, v.endTick_batch,
      fun j u hj hjk hrunj => ?_, fun _ hlt => ?_⟩
    · simpa only [hbatch, Nat.zero_add] using hsteps j u hj hjk hrunj
    · rw [State.endTick_eng]
      exact hends (by omega)
  | waitingForKey d =>
    have hbody : s.beginTick.tickBody = .next (s.beginTick.resumeAttempt d) := by
      rw [State.tickBody, State.beginTick_eng, heng]
    exact ⟨1, _, le_rfl, hsize, tick_of_tickBody hactive hbatch hbody, run_one (step_waiting hactive heng),
      State.endTick_batch _, fun _ _ _ _ => by omega, nofun⟩
  | halted r =>
    have hbody : s.beginTick.tickBody = .next s.beginTick := by
      rw [State.tickBody, State.beginTick_eng, heng]
    exact ⟨1, _, le_rfl, hsize, tick_of_tickBody hactive hbatch hbody, run_one (step_halted hactive heng),
      State.endTick_batch _, fun _ _ _ _ => by omega, nofun⟩

end Sys2Proof.Machine
end

section
/-! PROOF. 60_exceptions.md R118, R124 to R126, R143: what a step does to the engine, the timers and the keyboard. -/

namespace Sys2Proof.Machine

/-! ### The engine and the timers of one instruction -/

/-- The engine after an instruction: FX0A waits, every other instruction leaves it or halts. -/
theorem exec_eng_cases {i : Instr} {s t : State} (h : exec i s = .next t) :
    (∃ x, i = .ldVxK x ∧ t.eng = .waitingForKey x) ∨
      ((∀ x, i ≠ .ldVxK x) ∧ (t.eng = s.eng ∨ ∃ r, t.eng = .halted r)) := by
  by_cases hi : ∃ x, i = .ldVxK x
  · obtain ⟨x, rfl⟩ := hi
    cases h
    exact .inl ⟨x, rfl, rfl⟩
  · have hi : ∀ x, i ≠ .ldVxK x := fun x e => hi ⟨x, e⟩
    exact .inr ⟨hi, (exec_frame h).eng hi⟩

theorem exec_dt_cases {i : Instr} {s t : State} (h : exec i s = .next t) :
    t.dt = s.dt ∨ ∃ x, i = .ldDtVx x ∧ t.dt = s.getV x := by
  by_cases hi : ∃ x, i = .ldDtVx x
  · obtain ⟨x, rfl⟩ := hi
    cases h
    exact .inr ⟨x, rfl, rfl⟩
  · exact .inl ((exec_frame h).dt fun x e => hi ⟨x, e⟩)

theorem exec_st_cases {i : Instr} {s t : State} (h : exec i s = .next t) :
    t.st = s.st ∨ ∃ x, i = .ldStVx x ∧ t.st = s.getV x := by
  by_cases hi : ∃ x, i = .ldStVx x
  · obtain ⟨x, rfl⟩ := hi
    cases h
    exact .inr ⟨x, rfl, rfl⟩
  · exact .inl ((exec_frame h).st fun x e => hi ⟨x, e⟩)

/-! ### One `step()` call -/

theorem stepCall_dt_cases {s u : State} (h : s.stepCall = .next u) :
    u.dt = s.dt ∨ ∃ x, u.dt = s.getV x ∧ decodeWord s.cfg.strict59 s.nextWord = some (.ldDtVx x) := by
  rcases s.stepCall_cases with ⟨_, e⟩ | ⟨_, _, e⟩ | ⟨i, t, _, hdec, hexec, e⟩ <;> rw [h] at e <;> cases e
  · exact .inl rfl
  · exact .inl rfl
  · rcases exec_dt_cases hexec with hdt | ⟨x, rfl, hdt⟩
    · exact .inl hdt
    · exact .inr ⟨x, hdt, hdec⟩

theorem stepCall_st_cases {s u : State} (h : s.stepCall = .next u) :
    u.st = s.st ∨ ∃ x, u.st = s.getV x ∧ decodeWord s.cfg.strict59 s.nextWord = some (.ldStVx x) := by
  rcases s.stepCall_cases with ⟨_, e⟩ | ⟨_, _, e⟩ | ⟨i, t, _, hdec, hexec, e⟩ <;> rw [h] at e <;> cases e
  · exact .inl rfl
  · exact .inl rfl
  · rcases exec_st_cases hexec with hst | ⟨x, rfl, hst⟩
    · exact .inl hst
    · exact .inr ⟨x, hst, hdec⟩

/-- A call from a running engine leaves it waiting only by FX0A. -/
theorem stepCall_waiting {s u : State} {x : Reg} (heng : s.eng = .running) (h : s.stepCall = .next u)
    (hu : u.eng = .waitingForKey x) : decodeWord s.cfg.strict59 s.nextWord = some (.ldVxK x) := by
  rcases s.stepCall_cases with ⟨_, e⟩ | ⟨_, _, e⟩ | ⟨i, t, _, hdec, hexec, e⟩ <;> rw [h] at e <;> cases e
  · cases hu
  · cases hu
  · rcases exec_eng_cases hexec with ⟨y, rfl, hy⟩ | ⟨-, hsame | ⟨r, hr⟩⟩
    · rw [hu] at hy
      cases hy
      exact hdec
    · rw [hu, State.setPc_eng, heng] at hsame
      cases hsame
    · rw [hu] at hr
      cases hr

/-! ### One step, by the engine it starts from -/

/-- A step whose tick is not over was a `step()` call inside the batch. -/
theorem step_inside_batch {s t : State} (h : step s = .next t) (hbatch : t.batch ≠ 0) :
    ∃ u, s.beginTick.stepCall = .next u ∧ t = u.countStep := by
  obtain ⟨-, ⟨_, _, u, hu, rfl⟩ | ⟨_, _, rfl⟩ | ⟨d, _, rfl⟩ | ⟨r, _, rfl⟩⟩ := step_cases h
  · rcases u.afterStepCall_cases with ⟨_, _, e⟩ | ⟨_, e⟩
    · exact ⟨u, hu, e⟩
    · exact absurd (by rw [e, State.endTick_batch]) hbatch
  · exact absurd (State.endTick_batch _) hbatch
  · exact absurd (State.endTick_batch _) hbatch
  · exact absurd (State.endTick_batch _) hbatch

theorem step_from_waiting {s t : State} {d : Reg} (heng : s.eng = .waitingForKey d) (h : step s = .next t) :
    t = (s.beginTick.resumeAttempt d).endTick := by
  obtain ⟨-, ⟨e, _⟩ | ⟨e, _⟩ | ⟨d', e, rfl⟩ | ⟨r, e, _⟩⟩ := step_cases h <;> rw [heng] at e <;> cases e
  rfl

theorem step_from_halted {s t : State} {r : HaltRecord} (heng : s.eng = .halted r) (h : step s = .next t) :
    t = s.beginTick.endTick := by
  obtain ⟨-, ⟨e, _⟩ | ⟨e, _⟩ | ⟨d, e, _⟩ | ⟨r', e, rfl⟩⟩ := step_cases h <;> rw [heng] at e <;> cases e

theorem step_from_halted_eng {s t : State} {r : HaltRecord} (heng : s.eng = .halted r) (h : step s = .next t) :
    t.eng = .halted r := by
  rw [step_from_halted heng h, State.endTick_eng, State.beginTick_eng, heng]

/-! ### The statements -/

/-- Settles O49: only an instruction can write a timer inside a batch. -/
theorem timersAreNotDecrementedInsideABatch : Obligations.TimersAreNotDecrementedInsideABatch := by
  intro s t hstep hbatch
  obtain ⟨u, hu, rfl⟩ := step_inside_batch hstep hbatch
  obtain ⟨-, -, -, -, hsound, -⟩ := State.stepCall_frame hu
  have hdt := stepCall_dt_cases hu
  have hst := stepCall_st_cases hu
  simp only [State.beginTick_dt, State.beginTick_st, State.getV_beginTick, State.beginTick_cfg,
    State.nextWord_beginTick] at hdt hst
  exact ⟨hsound.trans s.beginTick_soundOn, hdt, hst⟩

/-- Settles O51: a halted engine makes one tick without a call, which stops the scheduler. -/
theorem haltIsTerminal : Obligations.HaltIsTerminal := by
  intro s t r n heng hrun
  cases n with
  | zero =>
    cases hrun
    exact ⟨heng, rfl, rfl, rfl, rfl, rfl, rfl, rfl, rfl, nofun, Nat.zero_le _⟩
  | succ n =>
    cases hactive : s.sched with
    | stopped => rw [run_stopped hactive] at hrun; cases hrun
    | active =>
      have hstopped : s.beginTick.endTick.sched = .stopped := by
        rw [State.endTick_sched, State.beginTick_eng, heng]; rfl
      rw [run_succ (step_halted hactive heng)] at hrun
      cases n with
      | zero =>
        cases hrun
        simp [heng, Engine.isHalted]
      | succ n => rw [run_stopped hstopped] at hrun; cases hrun

/-- Settles O52: the transitions of one instruction, and those of a step by the engine it starts from. -/
theorem engineMakesOnlyTheSpecsTransitions : Obligations.EngineMakesOnlyTheSpecsTransitions := by
  refine ⟨fun cfg inputs rom s h => ?_, fun i s t heng h => ?_, fun s t h => ?_⟩
  · rw [load_frame h]; rfl
  · rcases exec_eng_cases h with ⟨x, rfl, ht⟩ | ⟨hi, ht | ⟨r, ht⟩⟩
    · rw [ht]
    · rw [ht, heng]; exact hi
    · rw [ht]; exact hi
  · cases heng : s.eng with
    | running =>
      intro x ht
      obtain ⟨-, ⟨_, _, u, hu, rfl⟩ | ⟨_, _, rfl⟩ | ⟨d, e, _⟩ | ⟨r, e, _⟩⟩ := step_cases h
      · rw [State.afterStepCall_eng] at ht
        have hdec := stepCall_waiting (by rw [State.beginTick_eng, heng]) hu ht
        rwa [State.nextWord_beginTick, State.beginTick_cfg] at hdec
      · rw [State.endTick_eng, State.beginTick_eng, heng] at ht; cases ht
      · rw [heng] at e; cases e
      · rw [heng] at e; cases e
    | waitingForKey d =>
      rw [step_from_waiting heng h]
      cases hkey : s.beginTick.lastKey with
      | none =>
        refine .inr ⟨rfl, ?_⟩
        rw [resumeAttempt_unlatched hkey, State.endTick_eng, State.beginTick_eng, heng]
      | some k =>
        refine .inl ⟨k, rfl, ?_⟩
        rw [resumeAttempt_latched hkey, State.endTick_eq]
        exact ⟨rfl, (congrArg BitVec.toNat (State.getV_setV_same _ d _)).trans (keyByte_toNat k)⟩
    | halted r => exact step_from_halted_eng heng h

/-- Settles O53: a step of a waiting engine is a resume attempt between the start and the end of a tick. -/
theorem waitingKeepsEverythingButTimers : Obligations.WaitingKeepsEverythingButTimers := by
  refine ⟨fun s t d heng h => ?_, fun _ _ _ heng h => step_from_halted_eng heng h⟩
  rw [step_from_waiting heng h]
  refine ⟨by simp [resumeAttempt_pc], by simp, by simp, by simp, by simp, fun a => by simp, fun r hr => ?_,
    fun hnone => ?_, fun hrun => ?_, by simp [countDown_toNat], by simp [countDown_toNat], by simp⟩
  · have hr : d ≠ r := fun e => hr (e ▸ List.mem_singleton_self d)
    rw [State.getV_endTick, getV_resumeAttempt_ne _ hr, State.getV_beginTick]
  · rw [resumeAttempt_unlatched hnone, State.getV_endTick, State.getV_beginTick, State.endTick_eng,
      State.beginTick_eng]
    exact ⟨rfl, heng⟩
  · cases hkey : s.beginTick.lastKey with
    | some k => exact ⟨k, rfl⟩
    | none =>
      rw [resumeAttempt_unlatched hkey, State.endTick_eng, State.beginTick_eng, heng] at hrun
      cases hrun

/-- Settles O55: the start of a tick takes the input, no call touches the keyboard, and a resume empties the latch. -/
theorem oneInputPerTickAndFixedParameters : Obligations.OneInputPerTickAndFixedParameters := by
  refine ⟨fun s t h => ?_, fun s e rest hb hi => ?_, fun s rest hb hi => ?_, fun s hi => ?_, State.beginTick_later⟩
  · obtain ⟨-, ⟨heng, _, u, hu, rfl⟩ | ⟨heng, _, rfl⟩ | ⟨d, heng, rfl⟩ | ⟨r, heng, rfl⟩⟩ := step_cases h
    · obtain ⟨hcfg, -, -, hinputs, -, hkeys, hlast⟩ := State.stepCall_frame hu
      rcases u.afterStepCall_cases with ⟨_, _, e⟩ | ⟨_, e⟩ <;> rw [e] <;> simp [hcfg, hinputs, hkeys, hlast, heng]
    · simp [heng]
    · simp [heng]
    · simp [heng]
  · rw [State.beginTick, if_pos hb, State.pollInput, hi]; rfl
  · rw [State.beginTick, if_pos hb, State.pollInput, hi]; rfl
  · have hpoll : s.pollInput = s := by rw [State.pollInput, hi]
    rw [State.beginTick, hpoll, ite_self]

end Sys2Proof.Machine
end

section
/-! PROOF. 70_reset_and_hazards.md R145 to R150: the load. -/

namespace Sys2Proof.Machine

/-- The glyphs of the load image, glyph `g` at `5 * g` (10_state.md R37). -/
theorem background_glyph (t : GlyphTable) (g : Fin 16) (r : Fin 5) :
    Memory.background t (5 * g.val + r.val) = (t[g.val])[r.val] := by
  have hlt : 5 * g.val + r.val < 80 := by omega
  have hg : (5 * g.val + r.val) / 5 = g.val := by omega
  have hr : (5 * g.val + r.val) % 5 = r.val := by omega
  simp only [Memory.background, dif_pos hlt, hg, hr]

theorem background_zero (t : GlyphTable) {a : Nat} (h : 80 ≤ a) : Memory.background t a = 0 :=
  dif_neg (Nat.not_lt.mpr h)

section
variable {cfg : Config} {inputs : List (Option InputEvent)} {rom : List Byte} {s : State}

/-- The bytes of a load: the ROM, and the load image around it. -/
theorem byteAt_load (h : load cfg inputs rom = .ok s) (a : Nat) :
    s.byteAt a = (State.storeBytes programBase rom (State.initial cfg)).1.byteAt a := by
  obtain ⟨-, rfl⟩ := load_ok h
  rfl

theorem byteAt_load_rom (h : load cfg inputs rom = .ok s) {j : Nat} (hj : j < rom.length) :
    s.byteAt (0x200 + j) = rom[j] := by
  have hfits := (load_ok h).1
  rw [byteAt_load h]
  exact State.storeBytes_stored programBase rom _ hj (by simp only [programBase, romMax, addrMax] at hfits ⊢; omega)

theorem byteAt_load_other (h : load cfg inputs rom = .ok s) {a : Nat} (ha : a < 0x200 ∨ 0x200 + rom.length ≤ a) :
    s.byteAt a = Memory.background cfg.glyphs a := by
  rw [byteAt_load h, State.storeBytes_other programBase rom _ (ha.imp_right .inl)]
  rfl

end

/-- Settles O57: a ROM that fits is stored byte by byte into the load image. -/
theorem loadCopiesTheRomVerbatimOrFails : Obligations.LoadCopiesTheRomVerbatimOrFails := by
  intro cfg inputs rom
  refine ⟨fun hlarge => if_pos hlarge, fun hfits => ?_⟩
  obtain ⟨s, h⟩ : ∃ s, load cfg inputs rom = .ok s := ⟨_, if_neg (Nat.not_lt.mpr hfits)⟩
  have hframe := load_frame h
  refine ⟨s, h, fun j hj => byteAt_load_rom h hj, fun a ha hout => ?_, ?_⟩
  · rw [byteAt_load_other h hout, background_zero _ ha]
  · rw [hframe]
    simp [State.initial, State.getV, State.pixel]

/-- Settles O56: the first step of a load is the `step()` call at 0x200, which no check of the fetch halts. -/
theorem loadCopiesGlyphsAndStartsAt200 : Obligations.LoadCopiesGlyphsAndStartsAt200 := by
  intro cfg inputs rom s h
  have hframe := load_frame h
  have hcfg : s.cfg = cfg := by rw [hframe]; rfl
  have hpc : s.pc = 0x200 := by rw [hframe]; rfl
  have heng : s.eng = .running := by rw [hframe]; rfl
  have hactive : s.sched = .active := by rw [hframe]; rfl
  have hbatch : s.batch = 0 := by rw [hframe]; rfl
  refine ⟨fun g r => ?_, hpc, heng, hactive, fun hsize => ?_⟩
  · rw [byteAt_load_other h (.inl (by omega)), background_glyph]
  · obtain ⟨u, hu⟩ := s.beginTick.stepCall_completes
    have hcall : s.beginTick.stepCall =
        (s.beginTick.setPc 0x202).dispatch (s.byteAt 0x200 ++ s.byteAt 0x201) 0x200 := by
      have hfetched := stepCall_fetched (s := s.beginTick)
        (by rw [misaligned_eq_false_iff, State.beginTick_pc, hpc]; exact fun hodd => absurd hodd.2 (by decide))
        (by rw [State.beginTick_pc, hpc]; decide)
      rw [State.nextWord_beginTick, State.nextWord, State.beginTick_pc, hpc] at hfetched
      exact hfetched
    refine ⟨u, step_running hactive heng (by rwa [hbatch, hcfg]) hu, fun i hi => ?_, fun hnone => ?_⟩
    · rw [← hu, hcall, dispatch_decoded (by rwa [State.setPc_cfg, State.beginTick_cfg, hcfg])]
    · rw [hcall, dispatch_unsupported (by rwa [State.setPc_cfg, State.beginTick_cfg, hcfg])] at hu
      cases hu
      rfl

end Sys2Proof.Machine
end

section
/-! PROOF. 41_alu.md: loads, logic, arithmetic with flag, shifts and the draw. -/

namespace Sys2Proof.Machine

/-! ### Results and flags as numbers -/

theorem subResult_toNat (a b : Byte) : (subResult a b).toNat = (a.toNat + 256 - b.toNat) % 256 := by
  have hint := subResult_toInt a b
  omega

theorem carryFlag_toNat (a b : Byte) : (carryFlag a b).toNat = if 255 < a.toNat + b.toNat then 1 else 0 := by
  rw [carryFlag, flagByte_toNat, Bool.toNat, Bool.cond_decide]

theorem noBorrowFlag_toNat (a b : Byte) : (noBorrowFlag a b).toNat = if b.toNat ≤ a.toNat then 1 else 0 := by
  rw [noBorrowFlag, flagByte_toNat, Bool.toNat, Bool.cond_decide]

/-- A result and its flag as numbers: the result unless it is for VF, and the flag (41_alu.md R86). -/
theorem resultThenFlag_spec (s : State) (x : Reg) {result flag : Byte} {n f : Nat} (hresult : result.toNat = n)
    (hflag : flag.toNat = f) :
    OnlyRegs [x, vf] s (s.setResultThenFlag x result flag) ∧
      (x ≠ vf → ((s.setResultThenFlag x result flag).getV x).toNat = n) ∧
      ((s.setResultThenFlag x result flag).getV vf).toNat = f := by
  refine ⟨onlyRegs_setResultThenFlag s x result flag, fun hx => ?_, ?_⟩
  · rw [getV_setResultThenFlag s _ _ hx, hresult]
  · rw [getV_vf_setResultThenFlag, hflag]

/-! ### The statements -/

/-- Settles O19: each of the three is one write of `V[x]`. -/
theorem loadsAndAddImmediateWriteVx : Obligations.LoadsAndAddImmediateWriteVx := by
  intro x y nn s
  refine ⟨⟨_, rfl, s.getV_setV_same x _, onlyRegs_setV s x _⟩, ⟨_, rfl, ?_, onlyRegs_setV s x _⟩,
    ⟨_, rfl, s.getV_setV_same x _, onlyRegs_setV s x _⟩⟩
  rw [State.getV_setV_same, addResult_toNat]

/-- Settles O20: each of the three is one write of `V[x]`, of which the bits are known. -/
theorem logicWritesOnlyVx : Obligations.LogicWritesOnlyVx := by
  intro x y s
  refine ⟨⟨_, rfl, onlyRegs_setV s x _, fun k => ?_⟩, ⟨_, rfl, onlyRegs_setV s x _, fun k => ?_⟩,
    ⟨_, rfl, onlyRegs_setV s x _, fun k => ?_⟩⟩
  · rw [State.getV_setV_same, BitVec.getLsbD_or]
  · rw [State.getV_setV_same, BitVec.getLsbD_and]
  · rw [State.getV_setV_same, BitVec.getLsbD_xor]

/-- Settles O22: the flag is the later write. -/
theorem addSetsSumThenCarry : Obligations.AddSetsSumThenCarry := fun x _ s =>
  ⟨_, rfl, resultThenFlag_spec s x (addResult_toNat _ _) (carryFlag_toNat _ _)⟩

/-- Settles O23: 8XY7 is 8XY5 with the operands exchanged. -/
theorem subtractionsSetDifferenceThenNoBorrow : Obligations.SubtractionsSetDifferenceThenNoBorrow := fun x _ s =>
  ⟨⟨_, rfl, resultThenFlag_spec s x (subResult_toNat _ _) (noBorrowFlag_toNat _ _)⟩,
    ⟨_, rfl, resultThenFlag_spec s x (subResult_toNat _ _) (noBorrowFlag_toNat _ _)⟩⟩

/-- Settles O24: halving and doubling as numbers, each with the bit it shifts out. -/
theorem shiftsSetResultThenBitShiftedOut : Obligations.ShiftsSetResultThenBitShiftedOut := fun x _ s =>
  ⟨⟨_, rfl, resultThenFlag_spec s x (shrResult_toNat _) (shrFlag_toNat _)⟩,
    ⟨_, rfl, resultThenFlag_spec s x (shlResult_toNat _) (shlFlag_toNat _)⟩⟩

/-- Settles O21: the result stands where the flag does not overwrite it. -/
theorem arithmeticWrapsModulo256 : Obligations.ArithmeticWrapsModulo256 := by
  intro x y nn s
  refine ⟨⟨_, rfl, ?_⟩, fun hx => ⟨⟨_, rfl, ?_⟩, ⟨_, rfl, ?_⟩, ⟨_, rfl, ?_⟩, ⟨_, rfl, ?_⟩, ⟨_, rfl, ?_⟩⟩⟩
  · rw [State.getV_setV_same, addResult_toNat]
  all_goals rw [getV_setResultThenFlag s _ _ hx]
  · exact addResult_toNat _ _
  · exact subResult_toInt _ _
  · exact subResult_toInt _ _
  · exact shrResult_toNat _
  · exact shlResult_toNat _

/-- Settles O25: the draw is masked, so a bit outside the mask is 0. -/
theorem randomWritesAMaskedFreeDraw : Obligations.RandomWritesAMaskedFreeDraw := by
  intro x nn s
  have hdrawn : (s.draw8.2.setMaskedDraw x nn s.draw8.1).getV x = Config.draw8 s.drawCount &&& nn :=
    State.getV_setV_same _ x _
  refine ⟨_, rfl, hdrawn, fun k hk => ?_, rfl, (onlyRegs_setV s.draw8.2 x _).1, fun _ => rfl, rfl⟩
  rw [hdrawn, BitVec.getLsbD_and, hk, Bool.and_false]

end Sys2Proof.Machine
end

section
/-! PROOF. 40_control_flow.md R80, R83, R84 and 43_timers_keys.md: BNNN, the skips and the timer moves. -/

namespace Sys2Proof.Machine

/-- Settles O11: the sum is below 2^16, so the write of `PC` does not wrap. -/
theorem jumpWithOffsetAddsV0 : Obligations.JumpWithOffsetAddsV0 := fun nnn s =>
  ⟨_, rfl, zextAddr_add_zextByte_toNat nnn (s.getV 0), onlyPc_setPc s _⟩

/-- Settles O17: 5XYn and 9XYn are skips on opposite conditions. -/
theorem skipsOnRegisterPairs : Obligations.SkipsOnRegisterPairs := by
  intro x y low s
  refine ⟨⟨_, rfl, onlyPc_skipIf s _, ?_⟩, ⟨_, rfl, onlyPc_skipIf s _, ?_⟩⟩
  · simp only [State.skipIf_pc, beq_iff_eq]
  · simp only [State.skipIf_pc, bne_iff_ne, ite_not]

/-- Settles O43: each of the three is one write of its target. -/
theorem timerMovesTouchOnlyTheirTarget : Obligations.TimerMovesTouchOnlyTheirTarget := fun x s =>
  ⟨⟨_, rfl, s.getV_setV_same x _, onlyRegs_setV s x _⟩, ⟨_, rfl, fun _ _ => rfl, fun _ => rfl, rfl⟩,
    ⟨_, rfl, fun _ _ => rfl, fun _ => rfl, rfl⟩⟩

/-! ### The key skips -/

theorem keyQuery_inRange {s : State} {k : Byte} (h : k.toNat ≤ 15) :
    s.keyQuery k = some (s.keysDown.getLsbD (k.toNat % 16)) := by
  rw [Nat.mod_eq_of_lt (Nat.lt_succ_of_le h)]
  exact dif_pos h

theorem keyQuery_masked {s : State} {k : Byte} (h : 15 < k.toNat) (hp : s.cfg.keyIndexPolicy = .mask) :
    s.keyQuery k = some (s.keysDown.getLsbD (k.toNat % 16)) := by
  rw [State.keyQuery, dif_neg (Nat.not_le.mpr h), hp]
  rfl

theorem keyQuery_notPressed {s : State} {k : Byte} (h : 15 < k.toNat) (hp : s.cfg.keyIndexPolicy = .notPressed) :
    s.keyQuery k = some false := by
  rw [State.keyQuery, dif_neg (Nat.not_le.mpr h), hp]

theorem keyQuery_halts {s : State} {k : Byte} (h : 15 < k.toNat) (hp : s.cfg.keyIndexPolicy = .halt) :
    s.keyQuery k = none := by
  rw [State.keyQuery, dif_neg (Nat.not_le.mpr h), hp]

theorem execSkpVx_answered {x : Reg} {s : State} {p : Bool} (h : s.keyQuery (s.getV x) = some p) :
    exec (.skpVx x) s = .next (s.skipIf p) := by
  rw [exec, execSkpVx, h]

theorem execSknpVx_answered {x : Reg} {s : State} {p : Bool} (h : s.keyQuery (s.getV x) = some p) :
    exec (.sknpVx x) s = .next (s.skipIf (!p)) := by
  rw [exec, execSknpVx, h]

theorem execSkpVx_halts {x : Reg} {s : State} (h : s.keyQuery (s.getV x) = none) :
    exec (.skpVx x) s = .next (s.haltInstr (.skpVx x) .keyIndexOutOfRange (some (s.getV x).toNat)) := by
  rw [exec, execSkpVx, h]

theorem execSknpVx_halts {x : Reg} {s : State} (h : s.keyQuery (s.getV x) = none) :
    exec (.sknpVx x) s = .next (s.haltInstr (.sknpVx x) .keyIndexOutOfRange (some (s.getV x).toNat)) := by
  rw [exec, execSknpVx, h]

/-- The answer of `KeyQuery` where it has one (43_timers_keys.md R112). -/
theorem keyQuery_answers {s : State} {k : Byte} (h : k.toNat ≤ 15 ∨ s.cfg.keyIndexPolicy ≠ .halt) :
    ∃ p, s.keyQuery k = some p ∧
      (k.toNat ≤ 15 ∨ s.cfg.keyIndexPolicy = .mask → p = s.keysDown.getLsbD (k.toNat % 16)) ∧
      (15 < k.toNat ∧ s.cfg.keyIndexPolicy = .notPressed → p = false) := by
  rcases Nat.lt_or_ge 15 k.toNat with hk | hk
  · cases hp : s.cfg.keyIndexPolicy with
    | halt => exact absurd hp (h.resolve_left (Nat.not_le.mpr hk))
    | mask => exact ⟨_, keyQuery_masked hk hp, fun _ => rfl, nofun⟩
    | notPressed =>
      exact ⟨_, keyQuery_notPressed hk hp, fun hle => absurd (hle.resolve_right nofun) (Nat.not_le.mpr hk),
        fun _ => rfl⟩
  · exact ⟨_, keyQuery_inRange hk, fun _ => rfl, fun hlt => absurd hlt.1 (Nat.not_lt.mpr hk)⟩

/-- Settles O44: both skips follow the one answer. -/
theorem keySkipsFollowTheHeldKey : Obligations.KeySkipsFollowTheHeldKey := by
  intro x s h
  obtain ⟨p, hquery, hheld, hnone⟩ := keyQuery_answers h
  refine ⟨p, hheld, hnone, ⟨_, execSkpVx_answered hquery, onlyPc_skipIf s _, s.skipIf_pc p⟩,
    ⟨_, execSknpVx_answered hquery, onlyPc_skipIf s _, ?_⟩⟩
  rw [State.skipIf_pc]
  cases p <;> rfl

/-- Settles O45: `KeyQuery` has no answer, so both skips halt. -/
theorem keySkipsHaltOnAKeyOutOfRange : Obligations.KeySkipsHaltOnAKeyOutOfRange := by
  intro x s hkey hpolicy
  have hquery := keyQuery_halts hkey hpolicy
  exact ⟨⟨_, execSkpVx_halts hquery, onlyEngine_setEng s _, rfl⟩,
    ⟨_, execSknpVx_halts hquery, onlyEngine_setEng s _, rfl⟩⟩

end Sys2Proof.Machine
end

section
/-! PROOF. 95_test_vectors.md: the words written out. -/

namespace Sys2Proof

/-- Settles O6: the decoder computes each of the ten answers. -/
theorem writtenOutWordsDecode : Obligations.WrittenOutWordsDecode := by
  unfold Obligations.WrittenOutWordsDecode
  decide

end Sys2Proof
end
